-- ==== Sys2Proof/Word.lean ====
section
/-! DEFINITION. What a cell holds: a Word and an owner identity.

`10_state.md` rule R20: a Word is a signed integer held in XLEN bits. XLEN is a parameter of the core
(`00_scope.md` rule R5), so a Word is carried as the integer it denotes, of Lean's own type `Int`; its range is an
invariant of the state (`Sys2Proof.Machine.State.Inv`), which every operation keeps by wrapping to XLEN bits.
The spec writes a Word by its signed value too (`00_scope.md` rule R6). -/

namespace Sys2Proof

/-- The name State gives to an owner identity (`10_state.md` rule R21). The type of identities itself is a parameter
(`00_scope.md` rule R5): `Sys2Proof.Machine.CoreOver` takes it as an argument, and State, which is plain data, names
the identities of whichever type by numbers. Only equality of names means anything, so the number inside is never
added, ordered or looked at (`92_eei_decisions.md` D11; assumption 5). -/
structure Owner where
  /-- The number of this name. -/
  id : Nat
deriving DecidableEq, Repr

/-- The one owner a zeroed construction gives to every cell (`10_state.md` rule R33). That it is the identity
named 0 is a DESIGN CHOICE (assumption 5). -/
def Owner.black : Owner := ⟨0⟩

end Sys2Proof
end

