-- ==== Sys2Proof/Syntax.lean ====
section
/-! DEFINITION. The instruction set PCW24 as syntax: one constructor of `Instr` per row of
`spec/opcode_table.json`. -/

namespace Sys2Proof

/-- The six assigned operations (`30_encoding.md` rule R70). -/
inductive Operation where
  | add
  | sub
  | and
  | bic
  | or
  | xor
deriving DecidableEq, Repr

/-- The four condition codes (`30_encoding.md` rule R62). -/
inductive Cond where
  | zero
  | positive
  | negative
  | nonZero
deriving DecidableEq, Repr

/-- A decoded address field (`30_encoding.md` rule R63): a flag and a signed offset, which lies in -4..3 in
every field that has an encoding (`AddressField.wf`). -/
structure AddressField where
  /-- Whether the cell at the offset is a pointer (`41_address.md` rule R102). -/
  indirect : Bool
  /-- The offset from the executing cell, in cells. -/
  offset : Int
deriving DecidableEq, Repr

/-- The operand form `N` of the assembler (`30_encoding.md` rule R80). -/
def AddressField.direct (offset : Int) : AddressField := ⟨false, offset⟩

/-- The operand form `@N` of the assembler (`30_encoding.md` rule R80). -/
def AddressField.pointer (offset : Int) : AddressField := ⟨true, offset⟩

/-- The six fields of an instruction as `unpack` gives them, before the opcode is looked up
(`30_encoding.md` rule R66). -/
structure Fields where
  /-- Bits [23:18], the opcode. -/
  op : BitVec 6
  /-- Bits [17:16], the condition code. -/
  cc : BitVec 2
  /-- Bits [15:12], the condition-address field. -/
  ca : AddressField
  /-- Bits [11:8], the target field. -/
  t : AddressField
  /-- Bits [7:4], the source1 field. -/
  s1 : AddressField
  /-- Bits [3:0], the source2 field. -/
  s2 : AddressField
deriving DecidableEq, Repr

/-- The instructions. Every one has a condition and four address fields (`30_encoding.md` rule R61): the
condition-address, the target, source1 and source2. The five inert constructors are the five rows of
`opcode_table.json` for opcodes with no operation (`30_encoding.md` rule R70, `42_alu.md` rule R118); they keep
the opcode number, since it is part of the word. The spec's rows are those of the default map; under another
map an unassigned opcode belongs to the row whose range of numbers holds it, and the unassigned numbers among
1 to 6 belong to `inertOp7` (assumption 14). -/
inductive Instr where
  /-- ADD: the wrapped sum (`42_alu.md` rule R112). -/
  | add (cond : Cond) (ca t s1 s2 : AddressField)
  /-- SUB: the wrapped difference, source1 minus source2 (`42_alu.md` rule R113). -/
  | sub (cond : Cond) (ca t s1 s2 : AddressField)
  /-- AND: bitwise and (`42_alu.md` rule R114). -/
  | and (cond : Cond) (ca t s1 s2 : AddressField)
  /-- BIC: bit clear, source1 and not source2 (`42_alu.md` rule R115). -/
  | bic (cond : Cond) (ca t s1 s2 : AddressField)
  /-- OR: bitwise or (`42_alu.md` rule R116). -/
  | or (cond : Cond) (ca t s1 s2 : AddressField)
  /-- XOR: bitwise exclusive or (`42_alu.md` rule R117). -/
  | xor (cond : Cond) (ca t s1 s2 : AddressField)
  /-- INERT.op0: the unassigned opcode 0, which the all-zero Word holds (`30_encoding.md` rule R72). -/
  | inertOp0 (cond : Cond) (ca t s1 s2 : AddressField)
  /-- INERT.op7: an unassigned opcode in 1..7, with the default map the number 7 alone. -/
  | inertOp7 (op : BitVec 6) (cond : Cond) (ca t s1 s2 : AddressField)
  /-- INERT.op8_15: an unassigned opcode in 8..15. -/
  | inertOp8To15 (op : BitVec 6) (cond : Cond) (ca t s1 s2 : AddressField)
  /-- INERT.op16_31: an unassigned opcode in 16..31. -/
  | inertOp16To31 (op : BitVec 6) (cond : Cond) (ca t s1 s2 : AddressField)
  /-- INERT.op32_63: an unassigned opcode in 32..63. -/
  | inertOp32To63 (op : BitVec 6) (cond : Cond) (ca t s1 s2 : AddressField)
deriving DecidableEq, Repr

end Sys2Proof
end

