-- ==== Sys2Proof/Config.lean ====
section
/-! DEFINITION. The parameters the spec leaves to the implementation (`00_scope.md` rule R5), as plain data.

`N` is `State.size`, the owner type is `Owner`, and the random source is an argument of
`Sys2Proof.Machine.construct`. There is no free value in this model: nothing the spec leaves open is a result
of an instruction. -/

namespace Sys2Proof

/-- XLEN, OPNUM and CCNUM of one core (`00_scope.md` rule R5). -/
structure Config where
  /-- XLEN, the width in bits of a stored Word. -/
  xlen : Nat
  /-- OPNUM(ADD). -/
  opAdd : BitVec 6
  /-- OPNUM(SUB). -/
  opSub : BitVec 6
  /-- OPNUM(AND). -/
  opAnd : BitVec 6
  /-- OPNUM(BIC). -/
  opBic : BitVec 6
  /-- OPNUM(OR). -/
  opOr : BitVec 6
  /-- OPNUM(XOR). -/
  opXor : BitVec 6
  /-- CCNUM(Zero). -/
  ccZero : BitVec 2
  /-- CCNUM(Positive). -/
  ccPositive : BitVec 2
  /-- CCNUM(Negative). -/
  ccNegative : BitVec 2
  /-- CCNUM(NonZero). -/
  ccNonZero : BitVec 2
deriving DecidableEq, Repr

/-- The map OPNUM (`30_encoding.md` rule R70). -/
def Config.opnum (cfg : Config) : Operation → BitVec 6
  | .add => cfg.opAdd
  | .sub => cfg.opSub
  | .and => cfg.opAnd
  | .bic => cfg.opBic
  | .or => cfg.opOr
  | .xor => cfg.opXor

/-- The map CCNUM (`30_encoding.md` rule R62). -/
def Config.ccnum (cfg : Config) : Cond → BitVec 2
  | .zero => cfg.ccZero
  | .positive => cfg.ccPositive
  | .negative => cfg.ccNegative
  | .nonZero => cfg.ccNonZero

/-- The six opcode numbers in use, in the order of `30_encoding.md` rule R70. -/
def Config.assigned (cfg : Config) : List (BitVec 6) :=
  [cfg.opAdd, cfg.opSub, cfg.opAnd, cfg.opBic, cfg.opOr, cfg.opXor]

/-- The four condition numbers, in the order of `30_encoding.md` rule R62. -/
def Config.codes (cfg : Config) : List (BitVec 2) :=
  [cfg.ccZero, cfg.ccPositive, cfg.ccNegative, cfg.ccNonZero]

/-- The defaults of `00_scope.md` rule R5, which every worked example of the spec uses. -/
def Config.default : Config where
  xlen := 32
  opAdd := 1
  opSub := 2
  opAnd := 3
  opBic := 4
  opOr := 5
  opXor := 6
  ccZero := 0
  ccPositive := 1
  ccNegative := 2
  ccNonZero := 3

/-- The constraints of `00_scope.md` rule R5 on the parameters: XLEN at least 24, OPNUM injective, CCNUM
bijective, and the joint constraint of `30_encoding.md` rule R72, that the all-zero Word is never a writer:
either condition code 0 is not Zero (and then fails on the value 0, as Positive, Negative and NonZero do) or
opcode 0 is unassigned. -/
abbrev Config.wf (cfg : Config) : Prop :=
  24 ≤ cfg.xlen ∧ cfg.assigned.Nodup ∧ cfg.codes.Nodup ∧ (cfg.ccZero = 0 → 0 ∉ cfg.assigned)

end Sys2Proof
end

