-- ==== Sys2Proof/WellFormed.lean ====
section
/-! DEFINITION. Which instructions have an encoding: every offset in -4..3 (`30_encoding.md` rule R65), and
every inert opcode unassigned and inside the range of its row (`30_encoding.md` rule R70, rule R71). -/

namespace Sys2Proof

/-- An address field that 4 bits can hold (`30_encoding.md` rule R63, rule R65). -/
abbrev AddressField.wf (f : AddressField) : Prop := -4 ≤ f.offset ∧ f.offset ≤ 3

/-- The four address fields of an instruction can be encoded. -/
abbrev operandsWf (ca t s1 s2 : AddressField) : Prop := ca.wf ∧ t.wf ∧ s1.wf ∧ s2.wf

/-- Fields that `pack` can encode (`30_encoding.md` rule R67): any opcode and condition number, four fields
with an encoding. -/
abbrev Fields.wf (f : Fields) : Prop := operandsWf f.ca f.t f.s1 f.s2

/-- An opcode that is unassigned and whose number lies in `lo..hi` (`30_encoding.md` rule R70, rule R71). -/
abbrev inertOpcodeWf (cfg : Config) (op : BitVec 6) (lo hi : Nat) : Prop :=
  lo ≤ op.toNat ∧ op.toNat ≤ hi ∧ op ∉ cfg.assigned

/-- An instruction that has an encoding under the maps of `cfg`. -/
def Instr.wf (cfg : Config) : Instr → Bool
  | .add _ ca t s1 s2 => decide (operandsWf ca t s1 s2)
  | .sub _ ca t s1 s2 => decide (operandsWf ca t s1 s2)
  | .and _ ca t s1 s2 => decide (operandsWf ca t s1 s2)
  | .bic _ ca t s1 s2 => decide (operandsWf ca t s1 s2)
  | .or _ ca t s1 s2 => decide (operandsWf ca t s1 s2)
  | .xor _ ca t s1 s2 => decide (operandsWf ca t s1 s2)
  | .inertOp0 _ ca t s1 s2 => decide (0 ∉ cfg.assigned ∧ operandsWf ca t s1 s2)
  | .inertOp7 op _ ca t s1 s2 => decide (inertOpcodeWf cfg op 1 7 ∧ operandsWf ca t s1 s2)
  | .inertOp8To15 op _ ca t s1 s2 => decide (inertOpcodeWf cfg op 8 15 ∧ operandsWf ca t s1 s2)
  | .inertOp16To31 op _ ca t s1 s2 => decide (inertOpcodeWf cfg op 16 31 ∧ operandsWf ca t s1 s2)
  | .inertOp32To63 op _ ca t s1 s2 => decide (inertOpcodeWf cfg op 32 63 ∧ operandsWf ca t s1 s2)

end Sys2Proof
end

