-- ==== Sys2Proof/Decode.lean ====
section
/-! DEFINITION. The codec (`30_encoding.md`): `unpack` and `pack` between a Word and its fields, the opcode and
condition maps read backwards, and from these the decoder and the encoder of an instruction. Decoding is total
(rule R66): no 24-bit pattern is refused (rule R71). The inverse maps fall through to NonZero only where CCNUM
is not bijective, which `Config.wf` excludes. -/

namespace Sys2Proof

/-! ## Decoding -/

/-- The address field of four bits (`30_encoding.md` rule R63): bit 3 is the indirect flag, bits [2:0] a 3-bit
two's-complement offset. -/
def decodeField (f : BitVec 4) : AddressField := ⟨f.getLsbD 3, (f.extractLsb' 0 3).toInt⟩

/-- The fields of a 24-bit pattern (`30_encoding.md` rule R61, rule R66). -/
def unpackBits (u : BitVec 24) : Fields where
  op := u.extractLsb' 18 6
  cc := u.extractLsb' 16 2
  ca := decodeField (u.extractLsb' 12 4)
  t := decodeField (u.extractLsb' 8 4)
  s1 := decodeField (u.extractLsb' 4 4)
  s2 := decodeField (u.extractLsb' 0 4)

/-- `w[23:0]`: the low 24 bits of a Word of any width (`30_encoding.md` rule R60, rule R66). -/
def instructionBits (w : Int) : BitVec 24 := BitVec.ofInt 24 w

/-- `unpack` (`30_encoding.md` rule R66). -/
def unpack (w : Int) : Fields := unpackBits (instructionBits w)

/-- `operation(op)`, where `op` is recognised (`40_decode_condition.md` rule R91). -/
def Config.operationOf (cfg : Config) (op : BitVec 6) : Option Operation :=
  if op = cfg.opAdd then some .add
  else if op = cfg.opSub then some .sub
  else if op = cfg.opAnd then some .and
  else if op = cfg.opBic then some .bic
  else if op = cfg.opOr then some .or
  else if op = cfg.opXor then some .xor
  else none

/-- The condition whose number is `cc` (`30_encoding.md` rule R62). -/
def Config.condOf (cfg : Config) (cc : BitVec 2) : Cond :=
  if cc = cfg.ccZero then .zero
  else if cc = cfg.ccPositive then .positive
  else if cc = cfg.ccNegative then .negative
  else .nonZero

/-- The inert instruction of an unassigned opcode, by the rows of `opcode_table.json`
(`30_encoding.md` rule R70). -/
def inertOf (op : BitVec 6) (c : Cond) (ca t s1 s2 : AddressField) : Instr :=
  if op.toNat = 0 then .inertOp0 c ca t s1 s2
  else if op.toNat ≤ 7 then .inertOp7 op c ca t s1 s2
  else if op.toNat ≤ 15 then .inertOp8To15 op c ca t s1 s2
  else if op.toNat ≤ 31 then .inertOp16To31 op c ca t s1 s2
  else .inertOp32To63 op c ca t s1 s2

/-- The instruction of an operation. -/
def Operation.instr (o : Operation) (c : Cond) (ca t s1 s2 : AddressField) : Instr :=
  match o with
  | .add => .add c ca t s1 s2
  | .sub => .sub c ca t s1 s2
  | .and => .and c ca t s1 s2
  | .bic => .bic c ca t s1 s2
  | .or => .or c ca t s1 s2
  | .xor => .xor c ca t s1 s2

/-- The instruction that fields spell under the maps of `cfg` (`40_decode_condition.md` rule R90, rule R91). -/
def Instr.ofFields (cfg : Config) (f : Fields) : Instr :=
  match cfg.operationOf f.op with
  | some o => o.instr (cfg.condOf f.cc) f.ca f.t f.s1 f.s2
  | none => inertOf f.op (cfg.condOf f.cc) f.ca f.t f.s1 f.s2

/-- The decoder of a 24-bit pattern: total (`30_encoding.md` rule R66, rule R71). -/
def decodeBits (cfg : Config) (u : BitVec 24) : Instr := Instr.ofFields cfg (unpackBits u)

/-- The decoder of a cell's Word (`40_decode_condition.md` rule R90). -/
def decode (cfg : Config) (w : Int) : Instr := decodeBits cfg (instructionBits w)

/-- What the decoder reads, under the default maps, from an instruction whose bits are `w`, of which the table
gives `nbits`. The instruction is one 24-bit pattern (`30_encoding.md` rule R60), so bits above `nbits` are 0,
and a longer one does not exist. -/
def decodeTableWord (nbits w : Nat) : Option Instr :=
  if nbits ≤ 24 then some (decodeBits Config.default (BitVec.ofNat 24 (w % 2 ^ nbits))) else none

/-! ## Encoding -/

/-- The four bits of an address field (`30_encoding.md` rule R65). -/
def encodeField (a : AddressField) : BitVec 4 := BitVec.ofBool a.indirect ++ BitVec.ofInt 3 a.offset

/-- The 24-bit pattern of six fields (`30_encoding.md` rule R67). -/
def packBits (f : Fields) : BitVec 24 :=
  f.op ++ f.cc ++ encodeField f.ca ++ encodeField f.t ++ encodeField f.s1 ++ encodeField f.s2

/-- `pack` (`30_encoding.md` rule R67): the pattern zero-extended, so the Word is never negative. -/
def pack (f : Fields) : Int := (packBits f).toNat

/-- The fields that spell an instruction under the maps of `cfg`. -/
def Instr.toFields (cfg : Config) : Instr → Fields
  | .add c ca t s1 s2 => ⟨cfg.opAdd, cfg.ccnum c, ca, t, s1, s2⟩
  | .sub c ca t s1 s2 => ⟨cfg.opSub, cfg.ccnum c, ca, t, s1, s2⟩
  | .and c ca t s1 s2 => ⟨cfg.opAnd, cfg.ccnum c, ca, t, s1, s2⟩
  | .bic c ca t s1 s2 => ⟨cfg.opBic, cfg.ccnum c, ca, t, s1, s2⟩
  | .or c ca t s1 s2 => ⟨cfg.opOr, cfg.ccnum c, ca, t, s1, s2⟩
  | .xor c ca t s1 s2 => ⟨cfg.opXor, cfg.ccnum c, ca, t, s1, s2⟩
  | .inertOp0 c ca t s1 s2 => ⟨0, cfg.ccnum c, ca, t, s1, s2⟩
  | .inertOp7 op c ca t s1 s2 => ⟨op, cfg.ccnum c, ca, t, s1, s2⟩
  | .inertOp8To15 op c ca t s1 s2 => ⟨op, cfg.ccnum c, ca, t, s1, s2⟩
  | .inertOp16To31 op c ca t s1 s2 => ⟨op, cfg.ccnum c, ca, t, s1, s2⟩
  | .inertOp32To63 op c ca t s1 s2 => ⟨op, cfg.ccnum c, ca, t, s1, s2⟩

/-- The 24-bit pattern of an instruction. -/
def encodeBits (cfg : Config) (i : Instr) : BitVec 24 := packBits (i.toFields cfg)

/-- The Word of an instruction (`30_encoding.md` rule R67, rule R79). -/
def encode (cfg : Config) (i : Instr) : Int := pack (i.toFields cfg)

end Sys2Proof
end

