-- ==== Sys2Proof/Machine/State.lean ====
section
/-! DEFINITION. The state of the core as plain data, the ways a step or a host operation can stop, and the
state right after reset.

The architectural state is three things (`10_state.md` rule R20 to rule R22): the words, the owners beside them,
and the counter of generations. The construction parameters ride along (assumption 2), and two fields of the
model's own hold what a step keeps while it evaluates its cells (assumption 1). There is no register, no program
counter, no flag, no mode and no saved state (`10_state.md` rule R23 to rule R28, `60_exceptions.md`
rule R193, rule R194, rule R196). -/

namespace Sys2Proof.Machine

/-- One cell: a Word and an owner identity (`10_state.md` rule R21). -/
structure Cell where
  /-- The Word, by its signed value. -/
  word : Int
  /-- The owner identity. -/
  owner : Owner
deriving DecidableEq, Repr

/-- What a cell that is not listed holds: the content a zeroed construction gives to every cell
(`10_state.md` rule R33; assumption 3). -/
def Cell.blank : Cell := ⟨0, Owner.black⟩

/-- The cell memory (`20_memory.md` rule R40): the cells that do not hold `Cell.blank`, by address. The memory
has no bytes (rule R42), so an entry is a whole cell (assumption 3). -/
abbrev Memory := List (Nat × Cell)

/-- The canonical form: addresses strictly rising, and no entry equal to what an unlisted address reads as, so
that equal memories are equal lists. -/
abbrev Memory.wf (m : Memory) : Prop :=
  m.Pairwise (fun p q => p.1 < q.1) ∧ ∀ p ∈ m, p.2 ≠ Cell.blank

/-- A write request of the generation (`00_scope.md` rule R7, `43_commit.md` rule R132). -/
structure Request where
  /-- The destination cell, an index in 0..N-1. -/
  dest : Nat
  /-- The Word to be stored. -/
  value : Int
  /-- The pre-step owner of the writing cell. -/
  owner : Owner
deriving DecidableEq, Repr

/-- The core. -/
structure State where
  /-- XLEN, OPNUM and CCNUM of this core (`00_scope.md` rule R5): a construction parameter, never changed. -/
  cfg : Config
  /-- N, the number of cells (`10_state.md` rule R20): a construction parameter, never changed. -/
  size : Nat
  /-- The words and owners of the cells 0..N-1 (`10_state.md` rule R20, rule R21). -/
  mem : Memory
  /-- The count of completed generations (`10_state.md` rule R22). -/
  instructionCounter : Nat
  /-- The model's own: the index `i` of the executing cell while a step evaluates it (`10_state.md` rule R24;
  assumption 1). Zero between operations. -/
  site : Nat
  /-- The model's own: the requests made so far in the generation (`43_commit.md` rule R132; assumption 1).
  Empty between operations. -/
  requests : List Request
deriving DecidableEq, Repr

/-- How a step can stop with a fault. -/
inductive Fault where
  /-- Raised by `step` on a State with no cells (size 0). The spec makes no such core: CONSTRUCT with a size
  that is not positive returns an error and makes none (`45_host_port_and_assembler.md` rule R150), and STEP is
  total for N at least 1 (`43_commit.md` rule R137). No reachable state raises it. Safe (assumption 6). -/
  | noCore
deriving DecidableEq, Repr

/-- What the model refuses. No instruction and no step ends in one of these: the last three are refusals of an
assembly, which the spec asks for. -/
inductive Refusal where
  /-- Raised by the arm of `exec` of an instruction that has no meaning yet. No arm raises it. Safe. -/
  | notModelled (mnemonic : String)
  /-- Raised by an assembly with a literal outside the range of a Word, which the spec says a model refuses
  (`93_implementation_defined.md` I11, `92_eei_decisions.md` D22). Safe (assumption 10). -/
  | literalOutOfRange
  /-- Raised by an assembly with a literal that divides by zero or leaves a remainder, which the spec says a
  model refuses (`93_implementation_defined.md` I11, `92_eei_decisions.md` D23). Safe (assumption 10). -/
  | literalDivision
  /-- Raised by an assembly at a line that fits no form only because of a spelling the spec leaves open, or whose
  labels depend on one, which the spec says a model refuses (`93_implementation_defined.md` I13,
  `91_not_in_source.md` N16, N17). Safe (assumption 9). -/
  | unstatedLexeme
deriving DecidableEq, Repr

/-- The errors a host operation can return (`60_exceptions.md` rule R191). They are results, not states of the
machine (rule R193). -/
inductive HostError where
  /-- CONSTRUCT with a size that is not positive, or an assembled offset outside -4..3. -/
  | rangeError
  /-- A malformed line, an unknown mnemonic, or immediate addressing. -/
  | syntaxError
  /-- A label that is bound nowhere in the text. -/
  | referenceError
  /-- A label bound twice. -/
  | redefinitionError
deriving DecidableEq, Repr

/-- The state right after reset (`10_state.md` rule R33, `70_reset_and_hazards.md` rule R210): a zeroed
construction with the default parameters. The size 8 is a DESIGN CHOICE, since N has no default
(assumption 4). -/
def State.reset : State where
  cfg := Config.default
  size := 8
  mem := []
  instructionCounter := 0
  site := 0
  requests := []

end Sys2Proof.Machine
end

