-- ==== Sys2Proof/Machine/Ops.lean ====
section
/-! DEFINITION. The named operations over the cell memory, shared by the cells and the host: index
normalisation, wrapping, reading and writing cells, and the write request of an instruction.

The spec describes no exception entry and no return from one (`60_exceptions.md` rule R190, rule R193,
rule R195), so there is no operation that takes an exception. -/

namespace Sys2Proof.Machine

/-! ## Arithmetic -/

/-- `norm` (`20_memory.md` rule R41): the floor modulus by the core size `n`. -/
def norm (n : Nat) (z : Int) : Nat := ((z % n + n) % n).toNat

/-- `wrap_XLEN` (`00_scope.md` rule R6): the integer in -2^(xlen-1)..2^(xlen-1)-1 that is congruent to `z`
modulo 2^xlen. -/
def wrap (xlen : Nat) (z : Int) : Int := z.bmod (2 ^ xlen)

/-! ## The cell memory -/

/-- The cell at an address. -/
def Memory.load : Memory → Nat → Cell
  | [], _ => Cell.blank
  | (b, c) :: m, a => if a = b then c else Memory.load m a

/-- An entry in front of a memory, left out where it is what an unlisted address reads as. -/
def Memory.entry (a : Nat) (c : Cell) (m : Memory) : Memory :=
  if c = Cell.blank then m else (a, c) :: m

/-- The memory with one cell replaced, in the canonical form. -/
def Memory.store : Memory → Nat → Cell → Memory
  | [], a, c => Memory.entry a c []
  | (b, x) :: m, a, c =>
    if a < b then Memory.entry a c ((b, x) :: m)
    else if a = b then Memory.entry a c m
    else (b, x) :: Memory.store m a c

/-! ## Cells of the core -/

/-- The cell an index reaches (`20_memory.md` rule R41, rule R43): every integer is an address. -/
def State.cellAt (s : State) (z : Int) : Cell := s.mem.load (norm s.size z)

/-- `MemRead(z, 1)` (`00_scope.md` rule R7). While a step evaluates its cells the memory is not changed, so
this reads the pre-step snapshot (`43_commit.md` rule R130). -/
def State.memRead (s : State) (z : Int) : Int := (s.cellAt z).word

/-- `OwnerRead(z)` (`00_scope.md` rule R7). -/
def State.ownerRead (s : State) (z : Int) : Owner := (s.cellAt z).owner

/-- `MemWrite(z, 1, v)` by the executing cell (`00_scope.md` rule R7): memory does not change, a request with
the executing cell's own pre-step owner joins the writer set (`43_commit.md` rule R132). -/
def State.memWrite (s : State) (z : Int) (v : Int) : State :=
  { s with requests := s.requests ++ [⟨norm s.size z, v, s.ownerRead s.site⟩] }

/-- A cell replaced at once, which only the host does (`45_host_port_and_assembler.md` rule R153). -/
def State.storeCell (s : State) (z : Int) (c : Cell) : State :=
  { s with mem := s.mem.store (norm s.size z) c }

/-- `WRITE(i, word, owner)` (`45_host_port_and_assembler.md` rule R153): the word goes in as XLEN bits. -/
def State.write (s : State) (i : Int) (word : Int) (owner : Owner) : State :=
  s.storeCell i ⟨wrap s.cfg.xlen word, owner⟩

end Sys2Proof.Machine
end

