-- ==== Sys2Proof/Machine/Commit.lean ====
section
/-! DEFINITION. The conflict detector and the atomic commit (`43_commit.md` rule R133 to rule R136), and the
source's sequential touched-set algorithm, which gives the same memory (rule R135). -/

namespace Sys2Proof.Machine

/-- `cnt(d)`: how many requests target `d` (`43_commit.md` rule R133). Values and owners play no part. -/
def writerCount (reqs : List Request) (d : Nat) : Nat := reqs.countP (fun r => decide (r.dest = d))

/-- What a request puts into its destination: its value and its writer's owner. -/
def Request.cell (r : Request) : Cell := ⟨r.value, r.owner⟩

/-- The memory after the commit (`43_commit.md` rule R134): the requests that are alone at their destination
land, all others are dropped. -/
def commitMem (reqs : List Request) (m : Memory) : Memory :=
  (reqs.filter (fun r => decide (writerCount reqs r.dest = 1))).foldl (fun m r => m.store r.dest r.cell) m

/-- One writer's visit in the touched-set algorithm (`43_commit.md` rule R135): `snapshot` is the pre-step
memory, the pair is the next-state buffer and the set of touched destinations. -/
def touch (snapshot : Memory) (b : Memory × List Nat) (r : Request) : Memory × List Nat :=
  if r.dest ∈ b.2 then (b.1.store r.dest (snapshot.load r.dest), b.2)
  else (b.1.store r.dest r.cell, r.dest :: b.2)

/-- The touched-set algorithm of the source (`43_commit.md` rule R135). -/
def touchedSetCommit (reqs : List Request) (m : Memory) : Memory := (reqs.foldl (touch m) (m, [])).1

/-- The end of a generation (`43_commit.md` rule R134, rule R136): the requests are committed, the counter goes
up by one, and the fields a step works with are at rest again. -/
def State.commit (s : State) : State :=
  { s with
    mem := commitMem s.requests s.mem
    instructionCounter := s.instructionCounter + 1
    site := 0
    requests := [] }

end Sys2Proof.Machine
end

