-- ==== Sys2Proof/Machine/Operands.lean ====
section
/-! DEFINITION. The circular-array address calculator (`41_address.md`): the one operand form resolver, used for
all four address fields of an instruction (rule R104). -/

namespace Sys2Proof.Machine

/-- The cell a field names before any indirection, `norm(i + offset)` (`41_address.md` rule R100, rule R101). -/
def State.direct (s : State) (f : AddressField) : Nat := norm s.size (s.site + f.offset)

/-- `EA(f, i)` for the executing cell (`41_address.md` rule R100). An indirect field adds the whole Word of the
pointer cell to the pointer cell's own index (rule R102, rule R103), in exact integers, and there is one level
only. -/
def State.ea (s : State) (f : AddressField) : Nat :=
  if f.indirect then norm s.size (s.direct f + s.memRead (s.direct f)) else s.direct f

/-- The Word of the cell a field names: the operand fetch of `42_alu.md` rule R110. -/
def State.operand (s : State) (f : AddressField) : Int := s.memRead (s.ea f)

end Sys2Proof.Machine
end

