-- ==== Sys2Proof/Machine/Flags.lean ====
section
/-! DEFINITION. The condition logic (`40_decode_condition.md` rule R92). The hardware stores no flag
(`10_state.md` rule R25): an instruction's condition is tested against a cell in the same generation. -/

namespace Sys2Proof.Machine

/-- The comparison with zero of a condition code, on the whole signed Word (`40_decode_condition.md`
rule R92). -/
def condTest (c : Cond) (v : Int) : Bool :=
  match c with
  | .zero => decide (v = 0)
  | .positive => decide (0 < v)
  | .negative => decide (v < 0)
  | .nonZero => decide (v ≠ 0)

/-- `holds(i)` for the executing cell (`40_decode_condition.md` rule R92). -/
def State.holds (s : State) (c : Cond) (ca : AddressField) : Bool := condTest c (s.operand ca)

end Sys2Proof.Machine
end

