-- ==== Sys2Proof/Machine/Alu.lean ====
section
/-! DEFINITION. The six operations (`42_alu.md` rule R110 to rule R117): their functions, the operand fetch and
write request they share, and one meaning each. -/

namespace Sys2Proof.Machine

/-! ## The functions `f_OP`, on Words of `xlen` bits -/

/-- `f_ADD` (`42_alu.md` rule R112). -/
def aluAdd (xlen : Nat) (a b : Int) : Int := wrap xlen (a + b)

/-- `f_SUB` (`42_alu.md` rule R113): source1 minus source2. -/
def aluSub (xlen : Nat) (a b : Int) : Int := wrap xlen (a - b)

/-- `f_AND` (`42_alu.md` rule R114). -/
def aluAnd (xlen : Nat) (a b : Int) : Int := (BitVec.ofInt xlen a &&& BitVec.ofInt xlen b).toInt

/-- `f_BIC` (`42_alu.md` rule R115): the complement is over all `xlen` bits. -/
def aluBic (xlen : Nat) (a b : Int) : Int := (BitVec.ofInt xlen a &&& ~~~BitVec.ofInt xlen b).toInt

/-- `f_OR` (`42_alu.md` rule R116). -/
def aluOr (xlen : Nat) (a b : Int) : Int := (BitVec.ofInt xlen a ||| BitVec.ofInt xlen b).toInt

/-- `f_XOR` (`42_alu.md` rule R117). -/
def aluXor (xlen : Nat) (a b : Int) : Int := (BitVec.ofInt xlen a ^^^ BitVec.ofInt xlen b).toInt

/-- `f_OP` of an operation (`42_alu.md` rule R112 to rule R117). -/
def aluOf : Operation → Nat → Int → Int → Int
  | .add => aluAdd
  | .sub => aluSub
  | .and => aluAnd
  | .bic => aluBic
  | .or => aluOr
  | .xor => aluXor

/-! ## The meanings -/

/-- What the six operations share (`42_alu.md` rule R110, `40_decode_condition.md` rule R93): where the
condition holds, one request of `f` of the two sources for the target; where it fails, nothing. -/
def State.operate (f : Nat → Int → Int → Int) (c : Cond) (ca t s1 s2 : AddressField) (s : State) : State :=
  if s.holds c ca then s.memWrite (s.ea t) (f s.cfg.xlen (s.operand s1) (s.operand s2)) else s

/-- ADD (`42_alu.md` rule R112). -/
def execAdd (c : Cond) (ca t s1 s2 : AddressField) (s : State) : Host.Outcome State Fault Refusal :=
  .next (s.operate aluAdd c ca t s1 s2)

/-- SUB (`42_alu.md` rule R113). -/
def execSub (c : Cond) (ca t s1 s2 : AddressField) (s : State) : Host.Outcome State Fault Refusal :=
  .next (s.operate aluSub c ca t s1 s2)

/-- AND (`42_alu.md` rule R114). -/
def execAnd (c : Cond) (ca t s1 s2 : AddressField) (s : State) : Host.Outcome State Fault Refusal :=
  .next (s.operate aluAnd c ca t s1 s2)

/-- BIC (`42_alu.md` rule R115). -/
def execBic (c : Cond) (ca t s1 s2 : AddressField) (s : State) : Host.Outcome State Fault Refusal :=
  .next (s.operate aluBic c ca t s1 s2)

/-- OR (`42_alu.md` rule R116). -/
def execOr (c : Cond) (ca t s1 s2 : AddressField) (s : State) : Host.Outcome State Fault Refusal :=
  .next (s.operate aluOr c ca t s1 s2)

/-- XOR (`42_alu.md` rule R117). -/
def execXor (c : Cond) (ca t s1 s2 : AddressField) (s : State) : Host.Outcome State Fault Refusal :=
  .next (s.operate aluXor c ca t s1 s2)

end Sys2Proof.Machine
end

