-- ==== Sys2Proof/Machine/Inert.lean ====
section
/-! DEFINITION. The inert opcodes (`42_alu.md` rule R118): no target is computed, no value, no write request, no
fault. The condition of an inert cell can be evaluated, with no effect (`40_decode_condition.md` rule R93). -/

namespace Sys2Proof.Machine

/-- INERT.op0 (`42_alu.md` rule R118). -/
def execInertOp0 (_c : Cond) (_ca _t _s1 _s2 : AddressField) (s : State) : Host.Outcome State Fault Refusal :=
  .next s

/-- INERT.op7 (`42_alu.md` rule R118). -/
def execInertOp7 (_op : BitVec 6) (_c : Cond) (_ca _t _s1 _s2 : AddressField) (s : State) :
    Host.Outcome State Fault Refusal :=
  .next s

/-- INERT.op8_15 (`42_alu.md` rule R118). -/
def execInertOp8To15 (_op : BitVec 6) (_c : Cond) (_ca _t _s1 _s2 : AddressField) (s : State) :
    Host.Outcome State Fault Refusal :=
  .next s

/-- INERT.op16_31 (`42_alu.md` rule R118). -/
def execInertOp16To31 (_op : BitVec 6) (_c : Cond) (_ca _t _s1 _s2 : AddressField) (s : State) :
    Host.Outcome State Fault Refusal :=
  .next s

/-- INERT.op32_63 (`42_alu.md` rule R118). -/
def execInertOp32To63 (_op : BitVec 6) (_c : Cond) (_ca _t _s1 _s2 : AddressField) (s : State) :
    Host.Outcome State Fault Refusal :=
  .next s

end Sys2Proof.Machine
end

