-- ==== Sys2Proof/Machine/Dispatch.lean ====
section
/-! DEFINITION. What an instruction does when the cell `State.site` executes it: one arm per constructor. An
instruction's whole effect is at most one write request (`42_alu.md` rule R110, rule R118); the commit of the
generation decides which requests reach memory (`43_commit.md` rule R134). -/

namespace Sys2Proof.Machine

def exec (i : Instr) (s : State) : Host.Outcome State Fault Refusal :=
  match i with
  | .add c ca t s1 s2 => Sys2Proof.Machine.execAdd c ca t s1 s2 s
  | .sub c ca t s1 s2 => Sys2Proof.Machine.execSub c ca t s1 s2 s
  | .and c ca t s1 s2 => Sys2Proof.Machine.execAnd c ca t s1 s2 s
  | .bic c ca t s1 s2 => Sys2Proof.Machine.execBic c ca t s1 s2 s
  | .or c ca t s1 s2 => Sys2Proof.Machine.execOr c ca t s1 s2 s
  | .xor c ca t s1 s2 => Sys2Proof.Machine.execXor c ca t s1 s2 s
  | .inertOp0 c ca t s1 s2 => Sys2Proof.Machine.execInertOp0 c ca t s1 s2 s
  | .inertOp7 op c ca t s1 s2 => Sys2Proof.Machine.execInertOp7 op c ca t s1 s2 s
  | .inertOp8To15 op c ca t s1 s2 => Sys2Proof.Machine.execInertOp8To15 op c ca t s1 s2 s
  | .inertOp16To31 op c ca t s1 s2 => Sys2Proof.Machine.execInertOp16To31 op c ca t s1 s2 s
  | .inertOp32To63 op c ca t s1 s2 => Sys2Proof.Machine.execInertOp32To63 op c ca t s1 s2 s

end Sys2Proof.Machine
end

