-- ==== Sys2Proof/Machine/Generation.lean ====
section
/-! DEFINITION. One generation (`43_commit.md` rule R137): every cell is fetched, decoded and executed against
the pre-step memory, in the order of the indices (an order that cannot be observed, `20_memory.md` rule R49),
and then all requests are committed together. -/

namespace Sys2Proof.Machine

/-- The start of a generation: no cell evaluated, no request made. -/
def State.start (s : State) : State := { s with site := 0, requests := [] }

/-- The instruction of the executing cell (`20_memory.md` rule R44, `40_decode_condition.md` rule R90). -/
def State.fetch (s : State) : Instr := decode s.cfg (s.memRead s.site)

/-- On to the next cell. -/
def State.advance (s : State) : State := { s with site := s.site + 1 }

/-- `k` cells evaluated, from the executing one on (`43_commit.md` rule R131). -/
def evaluate : Nat → State → Host.Outcome State Fault Refusal
  | 0, s => .next s
  | k + 1, s =>
    match exec s.fetch s with
    | .next t => evaluate k t.advance
    | .fault f => .fault f
    | .refused r => .refused r

/-- STEP (`43_commit.md` rule R137): all cells evaluated, then the commit. -/
def generation (s : State) : Host.Outcome State Fault Refusal :=
  if s.size = 0 then .fault .noCore
  else
    match evaluate s.size s.start with
    | .next t => .next t.commit
    | .fault f => .fault f
    | .refused r => .refused r

/-- The state with a 24-bit pattern as the packed Word of cell 0, the first cell a step fetches; its owner stays
(assumption 15). -/
def State.placeWord (s : State) (nbits w : Nat) : State :=
  s.storeCell 0 ⟨wrap s.cfg.xlen ((w % 2 ^ nbits % 2 ^ 24 : Nat) : Int), s.ownerRead 0⟩

end Sys2Proof.Machine
end

