-- ==== Sys2Proof/Machine/Step.lean ====
section
/-! DEFINITION. The machine's step, which is one generation (`43_commit.md` rule R137), and the host's way of
placing one instruction where the next step fetches it. -/

namespace Sys2Proof.Machine

/-- STEP (`43_commit.md` rule R137, `45_host_port_and_assembler.md` rule R155). -/
def step (s : State) : Host.Outcome State Fault Refusal := generation s

/-- The state with an instruction word in cell 0, so that the next step fetches and runs it there. Every other
cell is left as it is, and executes as in any generation (assumption 15). -/
def State.withFetchWord (s : State) (nbits w : Nat) : State := s.placeWord nbits w

end Sys2Proof.Machine
end

