-- ==== Sys2Proof/Machine/Assembler.lean ====
section
/-! DEFINITION. The assembler (`45_host_port_and_assembler.md` rule R160 to rule R172, `30_encoding.md` rule R76
to rule R82): software beside the block, which writes the words of a text into the core by host writes. A text
is a list of characters. What the spec leaves open about spelling is decided in assumptions 8 and 9. -/

namespace Sys2Proof.Machine

/-- A piece of source text. -/
abbrev Text := List Char

/-! ## Lines -/

/-- A separator inside a line (assumption 8). -/
def isSpace (c : Char) : Bool := c = ' ' || c = '\t' || c = '\r'

/-- A character of a label name (assumption 8). -/
def isNameChar (c : Char) : Bool := c.isAlphanum || c = '_'

/-- The pieces of a text between the characters that satisfy `p`. -/
def splitText (p : Char → Bool) : Text → List Text
  | [] => [[]]
  | c :: cs =>
    match splitText p cs with
    | [] => [[c]]
    | w :: ws => if p c then [] :: w :: ws else (c :: w) :: ws

/-- The words of a text, separated by blanks. -/
def wordsOf (t : Text) : List Text := (splitText isSpace t).filter (fun w => decide (w ≠ []))

/-- A line after its comment is gone: an optional label prefix and what follows it (`30_encoding.md`
rule R76, rule R77). -/
structure SourceLine where
  /-- The label of the prefix `label:`. -/
  label : Option Text
  /-- A literal or an instruction, or nothing. -/
  body : Text
deriving DecidableEq, Repr

/-- Whether a line emits a word (`45_host_port_and_assembler.md` rule R161). -/
def SourceLine.emits (l : SourceLine) : Bool := decide (l.body ≠ [])

/-- A line without leading and trailing blanks. -/
def trimText (t : Text) : Text := ((t.dropWhile isSpace).reverse.dropWhile isSpace).reverse

/-- A line with its comment and outer blanks removed (`30_encoding.md` rule R76). -/
def stripLine (t : Text) : Text := trimText (t.takeWhile (fun c => decide (c ≠ ';')))

/-- The label prefix split off (`30_encoding.md` rule R77). A name does not begin with a digit
(assumption 8). -/
def splitLabel (t : Text) : SourceLine :=
  let name := t.takeWhile isNameChar
  match name, (t.dropWhile isNameChar).dropWhile isSpace with
  | c :: _, ':' :: rest => if c.isDigit then ⟨none, t⟩ else ⟨some name, trimText rest⟩
  | _, _ => ⟨none, t⟩

/-- The lines of a text that are not blank (`45_host_port_and_assembler.md` rule R161). -/
def sourceLines (t : Text) : List SourceLine :=
  (((splitText (fun c => decide (c = '\n')) t).map stripLine).filter (fun l => decide (l ≠ []))).map splitLabel

/-! ## Labels -/

/-- Names and numbers: positions after pass 1, cell indices after rebasing
(`45_host_port_and_assembler.md` rule R163, rule R166). -/
abbrev LabelTable := List (Text × Nat)

/-- The number of a name. -/
def LabelTable.find : LabelTable → Text → Option Nat
  | [], _ => none
  | (n, p) :: rest, name => if n = name then some p else LabelTable.find rest name

/-- Pass 1 from position `pos` on (`45_host_port_and_assembler.md` rule R162); none where a name is bound
twice. -/
def bindLabels : List SourceLine → Nat → LabelTable → Option LabelTable
  | [], _, table => some table
  | l :: ls, pos, table =>
    let next := if l.emits then pos + 1 else pos
    match l.label with
    | none => bindLabels ls next table
    | some name => if (table.find name).isSome then none else bindLabels ls next ((name, pos) :: table)

/-- Phase 3 (`45_host_port_and_assembler.md` rule R166). -/
def rebase (n : Nat) (address : Int) (table : LabelTable) : LabelTable :=
  table.map (fun e => (e.1, norm n (address + e.2)))

/-! ## Operands -/

/-- What an operand names: a number or a label (`30_encoding.md` rule R80). -/
inductive Place where
  | number (n : Int)
  | label (name : Text)
deriving DecidableEq, Repr

/-- An address operand `N` or `@N` (`30_encoding.md` rule R80). -/
structure Operand where
  indirect : Bool
  place : Place
deriving DecidableEq, Repr

/-- A decimal numeral. -/
def digitsValue (t : Text) : Nat := t.foldl (fun n c => 10 * n + (c.toNat - '0'.toNat)) 0

/-- A run of digits, read as a number. -/
def parseDigits (t : Text) : Option Nat :=
  if t ≠ [] ∧ t.all Char.isDigit then some (digitsValue t) else none

/-- A label name. -/
def parseName (t : Text) : Option Text :=
  match t with
  | c :: _ => if c.isDigit = false ∧ t.all isNameChar then some t else none
  | [] => none

/-- A signed decimal integer or a label (`30_encoding.md` rule R80). -/
def parsePlace (t : Text) : Option Place :=
  match t with
  | '-' :: ds => (parseDigits ds).map (fun n => .number (-(n : Int)))
  | _ =>
    match parseDigits t with
    | some n => some (.number n)
    | none => (parseName t).map .label

/-- An address operand; anything else, an immediate operand of any spelling among them, has none
(`92_eei_decisions.md` D25). -/
def parseOperand (t : Text) : Option Operand :=
  match t with
  | '@' :: rest => (parsePlace rest).map (⟨true, ·⟩)
  | _ => (parsePlace t).map (⟨false, ·⟩)

/-! ## Literal arithmetic -/

/-- The arithmetic of a literal line (`30_encoding.md` rule R78). -/
inductive Expr where
  | number (n : Int)
  | label (name : Text)
  | add (a b : Expr)
  | sub (a b : Expr)
  | mul (a b : Expr)
  | div (a b : Expr)
deriving DecidableEq, Repr

/-- A token of a literal: a run of name characters, any other character, or a blank. -/
inductive Token where
  | run (cs : Text)
  | sym (c : Char)
  | gap
deriving DecidableEq, Repr

/-- One character put before the tokens of the rest. -/
def lexChar (c : Char) (ts : List Token) : List Token :=
  if isNameChar c then
    match ts with
    | .run cs :: rest => .run (c :: cs) :: rest
    | _ => .run [c] :: ts
  else if isSpace c then .gap :: ts
  else .sym c :: ts

/-- The tokens of a text, blanks left out. -/
def lex (t : Text) : List Token := (t.foldr lexChar []).filter (fun k => decide (k ≠ .gap))

/-- A numeral or a label as a term. -/
def parseTerm (cs : Text) : Option Expr :=
  match parseDigits cs with
  | some n => some (.number n)
  | none => (parseName cs).map .label

/-- The operators that wait for their right operand at one level of grouping: a sum (true is `+`) and inside it
a product (true is `*`). -/
structure Pending where
  sum : Option (Expr × Bool)
  product : Option (Expr × Bool)
deriving DecidableEq, Repr

/-- A factor joined to the waiting product: `*` and `/` from left to right (`92_eei_decisions.md` D23). -/
def Pending.closeProduct (p : Pending) (e : Expr) : Expr :=
  match p.product with
  | none => e
  | some (a, true) => .mul a e
  | some (a, false) => .div a e

/-- A product joined to the waiting sum: `+` and `-` after `*` and `/`, from left to right
(`92_eei_decisions.md` D23). -/
def Pending.closeSum (p : Pending) (e : Expr) : Expr :=
  match p.sum with
  | none => e
  | some (a, true) => .add a e
  | some (a, false) => .sub a e

/-- How far a literal is read: the open level, the levels outside the open parentheses, the product read so far at
this level (none where an operand must come next), and whether a unary minus waits for its numeral. -/
structure Parse where
  level : Pending
  outer : List Pending
  value : Option Expr
  minus : Bool
deriving DecidableEq, Repr

/-- The start of a literal. -/
def Parse.start : Parse := ⟨⟨none, none⟩, [], none, false⟩

/-- An operand that has been read, joined to the waiting product. -/
def Parse.operand (p : Parse) (e : Expr) : Parse :=
  ⟨⟨p.level.sum, none⟩, p.outer, some (p.level.closeProduct e), false⟩

/-- One token where an operand must come: a numeral or a label, an open parenthesis, or a unary minus, which
stands before a numeral only (assumption 9). -/
def Parse.operandToken (p : Parse) (k : Token) : Option Parse :=
  match k, p.minus with
  | .run cs, false => (parseTerm cs).map p.operand
  | .run cs, true => (parseDigits cs).map (fun n => p.operand (.number (-(n : Int))))
  | .sym '(', false => some ⟨⟨none, none⟩, p.level :: p.outer, none, false⟩
  | .sym '-', false => some ⟨p.level, p.outer, none, true⟩
  | .sym _, _ => none
  | .gap, _ => some p

/-- One token after the product `e`: an operator or a closing parenthesis. -/
def Parse.operatorToken (p : Parse) (e : Expr) (k : Token) : Option Parse :=
  match k with
  | .sym '*' => some ⟨⟨p.level.sum, some (e, true)⟩, p.outer, none, false⟩
  | .sym '/' => some ⟨⟨p.level.sum, some (e, false)⟩, p.outer, none, false⟩
  | .sym '+' => some ⟨⟨some (p.level.closeSum e, true), none⟩, p.outer, none, false⟩
  | .sym '-' => some ⟨⟨some (p.level.closeSum e, false), none⟩, p.outer, none, false⟩
  | .sym ')' =>
    match p.outer with
    | q :: rest => some ⟨⟨q.sum, none⟩, rest, some (q.closeProduct (p.level.closeSum e)), false⟩
    | [] => none
  | .sym _ => none
  | .run _ => none
  | .gap => some p

/-- One token of a literal. -/
def Parse.token (p : Parse) (k : Token) : Option Parse :=
  match p.value with
  | none => p.operandToken k
  | some e => p.operatorToken e k

/-- The tokens of a literal, one after another. -/
def Parse.tokens : Parse → List Token → Option Parse
  | p, [] => some p
  | p, k :: ks =>
    match p.token k with
    | some q => q.tokens ks
    | none => none

/-- The expression of a literal line. -/
def parseExpr (t : Text) : Option Expr :=
  match Parse.start.tokens (lex t) with
  | some ⟨level, [], some e, _⟩ => some (level.closeSum e)
  | _ => none

/-- Why a call of the assembler stops: an error of the spec, or a refusal of the model. -/
inductive AsmStop where
  | error (e : HostError)
  | refused (r : Refusal)
deriving DecidableEq, Repr

/-- The value of an expression, labels standing for their positions (`30_encoding.md` rule R78,
`92_eei_decisions.md` D24); division must be exact (D23). DESIGN CHOICE (assumption 17): where an expression has both
an unbound label and a division that is refused, the one that stands first, from left to right, decides; D23 and D26
do not order them. -/
def Expr.eval (table : LabelTable) : Expr → Except AsmStop Int
  | .number n => .ok n
  | .label name =>
    match table.find name with
    | some p => .ok p
    | none => .error (.error .referenceError)
  | .add a b => do return (← a.eval table) + (← b.eval table)
  | .sub a b => do return (← a.eval table) - (← b.eval table)
  | .mul a b => do return (← a.eval table) * (← b.eval table)
  | .div a b => do
    let x ← a.eval table
    let y ← b.eval table
    if y = 0 ∨ x % y ≠ 0 then .error (.refused .literalDivision) else return x / y

/-! ## Statements -/

/-- What an emitting line holds (`30_encoding.md` rule R76). -/
inductive Statement where
  | instruction (op : Operation) (c : Cond) (ca t s1 s2 : Operand)
  | literal (e : Expr)
deriving DecidableEq, Repr

/-- The operation mnemonics, case-insensitive (`30_encoding.md` rule R79). -/
def parseOperation (t : Text) : Option Operation :=
  let u := t.map Char.toUpper
  if u = ['A', 'D', 'D'] then some .add
  else if u = ['S', 'U', 'B'] then some .sub
  else if u = ['A', 'N', 'D'] then some .and
  else if u = ['B', 'I', 'C'] then some .bic
  else if u = ['O', 'R'] then some .or
  else if u = ['X', 'O', 'R'] then some .xor
  else none

/-- The condition prefixes `IF.Z`, `IF.+`, `IF.-`, `IF.NZ` (`30_encoding.md` rule R79). -/
def parseCond (t : Text) : Option Cond :=
  if t = ['I', 'F', '.', 'Z'] then some .zero
  else if t = ['I', 'F', '.', '+'] then some .positive
  else if t = ['I', 'F', '.', '-'] then some .negative
  else if t = ['I', 'F', '.', 'N', 'Z'] then some .nonZero
  else none

/-- The four words `<OP> <target> <src1> <src2>` after a condition (`30_encoding.md` rule R79). -/
def parseAction (c : Cond) (ca : Operand) : List Text → Option Statement
  | [op, t, s1, s2] =>
    match parseOperation op, parseOperand t, parseOperand s1, parseOperand s2 with
    | some o, some t, some s1, some s2 => some (.instruction o c ca t s1 s2)
    | _, _, _, _ => none
  | _ => none

/-- The default condition-address, direct offset 0 (`30_encoding.md` rule R82). -/
def Operand.own : Operand := ⟨false, .number 0⟩

/-- The words of an instruction line, `[IF.<cond> <addr>] <OP> <target> <src1> <src2>` (`30_encoding.md`
rule R79, rule R82); none where they fit it not. -/
def parseInstruction : List Text → Option Statement
  | [] => none
  | w :: rest =>
    match parseCond w with
    | some c =>
      match rest with
      | a :: action =>
        match parseOperand a with
        | some ca => parseAction c ca action
        | none => none
      | [] => none
    | none => parseAction .nonZero Operand.own (w :: rest)

/-- Whether a line's words make it an instruction line: the first is a condition prefix or an operation, or is a
name and three address operands follow it. The last is an instruction line with an unknown operation
(`30_encoding.md` rule R79), though its characters can be read as arithmetic too (assumption 8). -/
def instructionLine (words : List Text) : Bool :=
  match words with
  | [] => false
  | w :: rest =>
    (parseCond w).isSome || (parseOperation w).isSome ||
      ((parseName w).isSome && decide (rest.length = 3) && rest.all (fun a => (parseOperand a).isSome))

/-- An emitting line (`30_encoding.md` rule R76, rule R78, rule R79); none where it fits no form. -/
def parseStatement (body : Text) : Option Statement :=
  if instructionLine (wordsOf body) then parseInstruction (wordsOf body)
  else (parseExpr body).map .literal

/-! ## Spellings the spec leaves open -/

/-- A condition prefix in capitals, if the word is one but for the case of its letters. -/
def capitalCond (w : Text) : Text := if (parseCond (w.map Char.toUpper)).isSome then w.map Char.toUpper else w

/-- A number written with a plus sign, without the sign; any other word as it is. -/
def dropPlus (w : Text) : Text :=
  match w with
  | '+' :: ds => if (parseDigits ds).isSome then ds else w
  | '@' :: '+' :: ds => if (parseDigits ds).isSome then '@' :: ds else w
  | _ => w

/-- Whether tokens are arithmetic with any numerals that begin with a digit and any signs before an operand.
`operand` says that an operand comes next, `depth` counts the open parentheses. -/
def openArithmetic : Bool → Nat → List Token → Bool
  | operand, depth, [] => !operand && depth = 0
  | operand, depth, .gap :: ts => openArithmetic operand depth ts
  | true, depth, .run _ :: ts => openArithmetic false depth ts
  | false, _, .run _ :: _ => false
  | true, depth, .sym c :: ts =>
    if c = '(' then openArithmetic true (depth + 1) ts
    else (c = '+' || c = '-') && openArithmetic true depth ts
  | false, depth, .sym c :: ts =>
    if c = ')' then decide (0 < depth) && openArithmetic false (depth - 1) ts
    else (c = '+' || c = '-' || c = '*' || c = '/') && openArithmetic true depth ts

/-- Whether a line that fits no form would fit one under some reading of what the spec leaves open
(`91_not_in_source.md` N16, N17; assumption 9): a condition prefix in another case, a plus sign before a number,
a numeral that runs into letters, a sign before a label, a parenthesis or another sign in a literal. -/
def openSpelling (body : Text) : Bool :=
  let words := wordsOf body
  (parseInstruction ((words.take 1).map capitalCond ++ (words.drop 1).map dropPlus)).isSome ||
    (!instructionLine words && openArithmetic true 0 (lex body))

/-- Whether a line begins with a word and a colon that is no label prefix only for the characters of the word,
which the spec leaves open (`91_not_in_source.md` N16; assumption 9). -/
def SourceLine.openLabel (l : SourceLine) : Bool :=
  let w := trimText (l.body.takeWhile (fun c => decide (c ≠ ':')))
  l.label.isNone && l.body.any (fun c => decide (c = ':')) && decide (w ≠ []) && w.all (fun c => !isSpace c)

/-! ## Emission -/

/-- The offset of an operand at position `pos` (`30_encoding.md` rule R81). -/
def Operand.resolve (table : LabelTable) (pos : Nat) (o : Operand) : Except AsmStop AddressField :=
  match o.place with
  | .number n => .ok ⟨o.indirect, n⟩
  | .label name =>
    match table.find name with
    | some p => .ok ⟨o.indirect, (p : Int) - pos⟩
    | none => .error (.error .referenceError)

/-- The word of a statement at position `pos` (`45_host_port_and_assembler.md` rule R164). All labels of a line
are resolved before its offsets are checked (`92_eei_decisions.md` D26). -/
def Statement.word (cfg : Config) (table : LabelTable) (pos : Nat) : Statement → Except AsmStop Int
  | .instruction op c ca t s1 s2 => do
    let ca ← ca.resolve table pos
    let t ← t.resolve table pos
    let s1 ← s1.resolve table pos
    let s2 ← s2.resolve table pos
    if operandsWf ca t s1 s2 then return encode cfg (op.instr c ca t s1 s2)
    else .error (.error .rangeError)
  | .literal e => do
    let v ← e.eval table
    if -(2 ^ (cfg.xlen - 1)) ≤ v ∧ v < 2 ^ (cfg.xlen - 1) then return v
    else .error (.refused .literalOutOfRange)

/-- The word an emitting line gives at position `pos`; a line that fits no form is a SyntaxError
(`45_host_port_and_assembler.md` rule R164), or is refused where its spelling is open
(`93_implementation_defined.md` I13; assumption 9). -/
def lineWord (cfg : Config) (table : LabelTable) (pos : Nat) (body : Text) : Except AsmStop Int :=
  match parseStatement body with
  | some st => st.word cfg table pos
  | none => if openSpelling body then .error (.refused .unstatedLexeme) else .error (.error .syntaxError)

/-- How a call of the assembler ends: with the count of words and the rebased labels, with an error and the
words of earlier lines in the core (`45_host_port_and_assembler.md` rule R169, rule R170), or refused by the
model. -/
inductive AssembleResult where
  | done (count : Nat) (labels : LabelTable) (s : State)
  | failed (e : HostError) (s : State)
  | refused (r : Refusal)
deriving DecidableEq, Repr

/-- Pass 2 from position `pos` on (`45_host_port_and_assembler.md` rule R164, rule R165). -/
def emitLines (table : LabelTable) (address : Int) (owner : Owner) :
    List SourceLine → Nat → State → AssembleResult
  | [], pos, s => .done pos (rebase s.size address table) s
  | l :: ls, pos, s =>
    if l.emits then
      match lineWord s.cfg table pos l.body with
      | .ok w => emitLines table address owner ls (pos + 1) (s.write (address + pos) w owner)
      | .error (.error e) => .failed e s
      | .error (.refused r) => .refused r
    else emitLines table address owner ls pos s

/-- `ASSEMBLE` of lines that are already split (`45_host_port_and_assembler.md` rule R160 to rule R170): pass 1
over all lines, then pass 2 (`60_exceptions.md` rule R192). Between them a text is refused whose labels depend on an
open spelling (assumption 9). -/
def assembleLines (lines : List SourceLine) (address : Int) (owner : Owner) (s : State) : AssembleResult :=
  match bindLabels lines 0 [] with
  | some table =>
    if lines.any SourceLine.openLabel then .refused .unstatedLexeme else emitLines table address owner lines 0 s
  | none => .failed .redefinitionError s

/-- `ASSEMBLE(text, address, owner)` (`45_host_port_and_assembler.md` rule R157). -/
def assemble (text : Text) (address : Int) (owner : Owner) (s : State) : AssembleResult :=
  assembleLines (sourceLines text) address owner s

end Sys2Proof.Machine
end

