-- ==== Sys2Proof/Machine/Dump.lean ====
section
/-! DEFINITION. The debugging dump (`30_encoding.md` rule R84, `60_exceptions.md` rule R202): display only, it
reads the core and changes nothing. Its open details are decided in assumption 12. -/

namespace Sys2Proof.Machine

/-- The spelling of an address field (`30_encoding.md` rule R64). Offsets are single digits in every field that
has an encoding. -/
def spellField (f : AddressField) : Text :=
  (if f.indirect then ['@'] else []) ++ (if f.offset < 0 then ['-'] else []) ++
    [Char.ofNat (48 + f.offset.natAbs)]

/-- The spelling of a condition (`30_encoding.md` rule R79). -/
def spellCond : Cond → Text
  | .zero => ['Z']
  | .positive => ['+']
  | .negative => ['-']
  | .nonZero => ['N', 'Z']

/-- The spelling of an operation (`30_encoding.md` rule R79). -/
def spellOperation : Operation → Text
  | .add => ['A', 'D', 'D']
  | .sub => ['S', 'U', 'B']
  | .and => ['A', 'N', 'D']
  | .bic => ['B', 'I', 'C']
  | .or => ['O', 'R']
  | .xor => ['X', 'O', 'R']

/-- The condition prefix `IF.<cond> <addr> ` (`30_encoding.md` rule R79). -/
def spellCondition (c : Cond) (ca : AddressField) : Text :=
  ['I', 'F', '.'] ++ spellCond c ++ [' '] ++ spellField ca ++ [' ']

/-- `<OP> <target> <src1> <src2>` (`30_encoding.md` rule R79). -/
def spellAction (o : Operation) (t s1 s2 : AddressField) : Text :=
  spellOperation o ++ [' '] ++ spellField t ++ [' '] ++ spellField s1 ++ [' '] ++ spellField s2

/-- `[IF.<cond> <addr> ]<OP> <target> <src1> <src2>`, the prefix left out where it is the default `IF.NZ 0`
(`30_encoding.md` rule R82, rule R84). -/
def spellInstruction (o : Operation) (c : Cond) (ca t s1 s2 : AddressField) : Text :=
  (if c = .nonZero ∧ ca = ⟨false, 0⟩ then [] else spellCondition c ca) ++ spellAction o t s1 s2

/-- The listing of an instruction; an inert one has no mnemonic and no listing (`30_encoding.md` rule R70,
`92_eei_decisions.md` D27). -/
def listing : Instr → Option Text
  | .add c ca t s1 s2 => some (spellInstruction .add c ca t s1 s2)
  | .sub c ca t s1 s2 => some (spellInstruction .sub c ca t s1 s2)
  | .and c ca t s1 s2 => some (spellInstruction .and c ca t s1 s2)
  | .bic c ca t s1 s2 => some (spellInstruction .bic c ca t s1 s2)
  | .or c ca t s1 s2 => some (spellInstruction .or c ca t s1 s2)
  | .xor c ca t s1 s2 => some (spellInstruction .xor c ca t s1 s2)
  | .inertOp0 _ _ _ _ _ => none
  | .inertOp7 _ _ _ _ _ _ => none
  | .inertOp8To15 _ _ _ _ _ _ => none
  | .inertOp16To31 _ _ _ _ _ _ => none
  | .inertOp32To63 _ _ _ _ _ _ => none

/-- One line of the dump (`30_encoding.md` rule R84): the cell's index, the listing of its instruction, the raw
Word and the labels of the last assembly bound to that index. -/
structure DumpLine where
  address : Nat
  listing : Option Text
  word : Int
  labels : List Text
deriving DecidableEq, Repr

/-- The dump line of the cell at index `i`, under the rebased labels of an assembly. -/
def State.dumpLine (s : State) (labels : LabelTable) (i : Int) : DumpLine where
  address := norm s.size i
  listing := Machine.listing (decode s.cfg (s.memRead i))
  word := s.memRead i
  labels := (labels.filter (fun e => decide (e.2 = norm s.size i))).map Prod.fst

end Sys2Proof.Machine
end

