-- ==== Sys2Proof/Machine/OwnerTypes.lean ====
section
/-! DEFINITION. The core over an owner type that is an argument (`00_scope.md` rule R5, `92_eei_decisions.md` D11):
the rules of a generation (`43_commit.md` rule R131 to rule R137) and the host's moves on the arrays, written over
the words and owners as functions of the cell index, for any type of owner identities. The machine's State names
the identities of such a core (`State.Shows`); claims over every owner type are made through this. No equality of
identities is asked for, since no rule compares two of them. -/

namespace Sys2Proof.Machine

/-- The words, the owners and the counter of a core whose owner identities have type `O` (`10_state.md` rule R20 to
rule R22), with its parameters (`00_scope.md` rule R5). Only indices below `size` mean anything. -/
structure CoreOver (O : Type) where
  /-- XLEN, OPNUM and CCNUM. -/
  cfg : Config
  /-- N. -/
  size : Nat
  /-- `words[d]`. -/
  word : Nat → Int
  /-- `owners[d]`. -/
  owner : Nat → O
  /-- `instructionCounter`. -/
  counter : Nat

/-! ## A generation as rules -/

/-- `EA(f, i)` on the pre-step cells (`41_address.md` rule R100). -/
def CoreOver.effectiveAddress {O : Type} (c : CoreOver O) (f : AddressField) (i : Nat) : Nat :=
  let p := norm c.size (i + f.offset)
  if f.indirect then norm c.size (p + c.word p) else p

/-- The Word at `EA(f, i)` on the pre-step cells. -/
def CoreOver.source {O : Type} (c : CoreOver O) (f : AddressField) (i : Nat) : Int := c.word (c.effectiveAddress f i)

/-- The destination and the value of `req(i)`, whose owner is that of cell `i` (`43_commit.md` rule R131). -/
def CoreOver.demand {O : Type} (c : CoreOver O) (i : Nat) : Option (Nat × Int) :=
  let f := unpack (c.word i)
  match c.cfg.operationOf f.op with
  | none => none
  | some o =>
    if condTest (c.cfg.condOf f.cc) (c.source f.ca i) then
      some (c.effectiveAddress f.t i, aluOf o c.cfg.xlen (c.source f.s1 i) (c.source f.s2 i))
    else none

/-- The writers whose request targets `d` (`43_commit.md` rule R132, rule R133): `cnt(d)` is their number. -/
def CoreOver.writersOf {O : Type} (c : CoreOver O) (d : Nat) : List Nat :=
  (List.range c.size).filter (fun i => decide ((c.demand i).map Prod.fst = some d))

/-- STEP (`43_commit.md` rule R134, rule R136, rule R137). -/
def CoreOver.step {O : Type} (c : CoreOver O) : CoreOver O :=
  { c with
    word := fun d =>
      match c.writersOf d with
      | [i] => ((c.demand i).map Prod.snd).getD (c.word d)
      | _ => c.word d
    owner := fun d =>
      match c.writersOf d with
      | [i] => c.owner i
      | _ => c.owner d
    counter := c.counter + 1 }

/-! ## The host's moves -/

/-- `WRITE(i, word, owner)` (`45_host_port_and_assembler.md` rule R153). -/
def CoreOver.write {O : Type} (c : CoreOver O) (i : Int) (word : Int) (owner : O) : CoreOver O :=
  { c with
    word := fun d => if d = norm c.size i then wrap c.cfg.xlen word else c.word d
    owner := fun d => if d = norm c.size i then owner else c.owner d }

/-- The words of an assembly, written one after another (`45_host_port_and_assembler.md` rule R157, rule R165). -/
def CoreOver.writeAll {O : Type} (c : CoreOver O) (address : Int) (owner : O) : List Int → CoreOver O
  | [] => c
  | w :: ws => CoreOver.writeAll (c.write address w owner) (address + 1) owner ws

/-- A construction, zeroed where every word is 0 and every owner the one BLACK, randomized where they are draws
(`10_state.md` rule R33). -/
def CoreOver.fresh {O : Type} (cfg : Config) (size : Nat) (word : Nat → Int) (owner : Nat → O) : CoreOver O :=
  ⟨cfg, size, word, owner, 0⟩

/-! ## State over an owner type -/

/-- The core that a State is, over the owner names themselves. -/
def State.arrays (s : State) : CoreOver Owner :=
  ⟨s.cfg, s.size, fun d => (s.mem.load d).word, fun d => (s.mem.load d).owner, s.instructionCounter⟩

/-- A State stands for a core over `O` under a reading of its owner names. -/
def State.Shows {O : Type} (s : State) (name : Owner → O) (c : CoreOver O) : Prop :=
  s.cfg = c.cfg ∧ s.size = c.size ∧ s.instructionCounter = c.counter ∧
    ∀ d < s.size, (s.mem.load d).word = c.word d ∧ name (s.mem.load d).owner = c.owner d

end Sys2Proof.Machine
end

