-- ==== Sys2Proof/Machine/Port.lean ====
section
/-! DEFINITION. The host port (`45_host_port_and_assembler.md` rule R150 to rule R159, rule R173): each operation
is one atomic function of the whole state, so no operation can begin while another is in progress
(`20_memory.md` rule R50; assumption 7). -/

namespace Sys2Proof.Machine

/-- A random source as it is passed into the construction of `n` cells (`10_state.md` rule R33): any words, and
owners that are pairwise distinct (`92_eei_decisions.md` D14). -/
structure RandomSource (n : Nat) where
  /-- The draw of cell i's Word. -/
  word : Nat → Int
  /-- The draw of cell i's owner. -/
  owner : Nat → Owner
  /-- The law of the draws of owners. -/
  distinct : ∀ i < n, ∀ j < n, owner i = owner j → i = j

/-- The argument `randomize` of a construction of `n` cells, with its random source
(`45_host_port_and_assembler.md` rule R150). -/
inductive Fill (n : Nat) where
  | zeroed
  | randomized (rng : RandomSource n)

/-- The cells 0..k-1 of a randomized construction (`10_state.md` rule R33). -/
def randomCells (xlen : Nat) (word : Nat → Int) (owner : Nat → Owner) : Nat → Memory
  | 0 => []
  | k + 1 => (randomCells xlen word owner k).store k ⟨wrap xlen (word k), owner k⟩

/-- `CONSTRUCT(size, randomize)` (`45_host_port_and_assembler.md` rule R150, `10_state.md` rule R33), for a core
with the parameters `cfg`. -/
def construct (cfg : Config) (size : Int) (fill : Fill size.toNat) : Except HostError State :=
  if size ≤ 0 then .error .rangeError
  else .ok
    { cfg := cfg
      size := size.toNat
      mem := match fill with
        | .zeroed => []
        | .randomized rng => randomCells cfg.xlen rng.word rng.owner size.toNat
      instructionCounter := 0
      site := 0
      requests := [] }

/-- `READ(i)` (`45_host_port_and_assembler.md` rule R152). -/
def State.read (s : State) (i : Int) : Int := s.memRead i

/-- `WORDS()` (`45_host_port_and_assembler.md` rule R154). -/
def State.words (s : State) : List Int := (List.range s.size).map (fun d => (s.mem.load d).word)

/-- `OWNERS()` (`45_host_port_and_assembler.md` rule R154). -/
def State.owners (s : State) : List Owner := (List.range s.size).map (fun d => (s.mem.load d).owner)

/-- `CTR()` (`45_host_port_and_assembler.md` rule R156). -/
def State.ctr (s : State) : Nat := s.instructionCounter

/-- What the renderer reads of a cell (`45_host_port_and_assembler.md` rule R158); the colour of the owner is
outside the block. -/
def State.render (s : State) (i : Int) : Int × Owner := (s.memRead i, s.ownerRead i)

/-- A call of the host on a constructed core (`45_host_port_and_assembler.md` rule R159, rule R173). -/
inductive HostOp where
  | read (i : Int)
  | write (i : Int) (word : Int) (owner : Owner)
  | words
  | owners
  | step
  | ctr
  | assemble (text : Text) (address : Int) (owner : Owner)
deriving DecidableEq, Repr

/-- What a call returns (`45_host_port_and_assembler.md` rule R173). -/
inductive Reply where
  | none
  | word (w : Int)
  | words (ws : List Int)
  | owners (os : List Owner)
  | count (n : Nat)
  | assembled (n : Nat) (labels : LabelTable)
  | error (e : HostError)
deriving DecidableEq, Repr

/-- One call of the host: its reply and the state after it (`45_host_port_and_assembler.md` rule R173). -/
def performHost (op : HostOp) (s : State) : Host.Outcome (Reply × State) Fault Refusal :=
  match op with
  | .read i => .next (.word (s.read i), s)
  | .write i word owner => .next (.none, s.write i word owner)
  | .words => .next (.words s.words, s)
  | .owners => .next (.owners s.owners, s)
  | .step =>
    match Machine.step s with
    | .next t => .next (.none, t)
    | .fault f => .fault f
    | .refused r => .refused r
  | .ctr => .next (.count s.ctr, s)
  | .assemble text address owner =>
    match Machine.assemble text address owner s with
    | .done n labels t => .next (.assembled n labels, t)
    | .failed e t => .next (.error e, t)
    | .refused r => .refused r

/-- A sequence of calls, one at a time (`70_reset_and_hazards.md` rule R211, rule R219): the last state. -/
def performAll : List HostOp → State → Host.Outcome State Fault Refusal
  | [], s => .next s
  | op :: ops, s =>
    match performHost op s with
    | .next (_, t) => performAll ops t
    | .fault f => .fault f
    | .refused r => .refused r

end Sys2Proof.Machine
end

