-- ==== Sys2Proof/Safety.lean ====
section
/-! DEFINITION. The terms claims are stated in: the invariant of a core between operations, the rows of the
opcode table, and the rules of a generation (`43_commit.md` rule R131 to rule R134) written as plain functions
of the pre-step state, apart from the machine's own way through its cells. -/

namespace Sys2Proof.Machine

/-! ## The invariant -/

/-- The range of a Word of `xlen` bits (`00_scope.md` rule R6, `10_state.md` rule R31). -/
abbrev inRange (xlen : Nat) (w : Int) : Prop := -(2 ^ (xlen - 1)) ≤ w ∧ w < 2 ^ (xlen - 1)

/-- A core between operations: parameters within the constraints of `00_scope.md` rule R5, at least one cell, a
canonical memory whose entries are cells of the core holding Words of XLEN bits (`10_state.md` rule R31,
`43_commit.md` rule R138), and the fields a step works with at rest (assumption 1). -/
abbrev State.Inv (s : State) : Prop :=
  s.cfg.wf ∧ 0 < s.size ∧ Memory.wf s.mem ∧
    (∀ p ∈ s.mem, p.1 < s.size ∧ inRange s.cfg.xlen p.2.word) ∧ s.site = 0 ∧ s.requests = []

/-! ## The opcode table -/

/-- The rows of `opcode_table.json`: mnemonic, match and mask (`30_encoding.md` rule R70). -/
def opcodeTable : List (String × BitVec 24 × BitVec 24) :=
  [("ADD", 0x040000, 0xFC0000), ("SUB", 0x080000, 0xFC0000), ("AND", 0x0C0000, 0xFC0000),
   ("BIC", 0x100000, 0xFC0000), ("OR", 0x140000, 0xFC0000), ("XOR", 0x180000, 0xFC0000),
   ("INERT.op0", 0x000000, 0xFC0000), ("INERT.op7", 0x1C0000, 0xFC0000),
   ("INERT.op8_15", 0x200000, 0xE00000), ("INERT.op16_31", 0x400000, 0xC00000),
   ("INERT.op32_63", 0x800000, 0x800000)]

/-- The row of an instruction. -/
def rowOf : Instr → String × BitVec 24 × BitVec 24
  | .add _ _ _ _ _ => ("ADD", 0x040000, 0xFC0000)
  | .sub _ _ _ _ _ => ("SUB", 0x080000, 0xFC0000)
  | .and _ _ _ _ _ => ("AND", 0x0C0000, 0xFC0000)
  | .bic _ _ _ _ _ => ("BIC", 0x100000, 0xFC0000)
  | .or _ _ _ _ _ => ("OR", 0x140000, 0xFC0000)
  | .xor _ _ _ _ _ => ("XOR", 0x180000, 0xFC0000)
  | .inertOp0 _ _ _ _ _ => ("INERT.op0", 0x000000, 0xFC0000)
  | .inertOp7 _ _ _ _ _ _ => ("INERT.op7", 0x1C0000, 0xFC0000)
  | .inertOp8To15 _ _ _ _ _ _ => ("INERT.op8_15", 0x200000, 0xE00000)
  | .inertOp16To31 _ _ _ _ _ _ => ("INERT.op16_31", 0x400000, 0xC00000)
  | .inertOp32To63 _ _ _ _ _ _ => ("INERT.op32_63", 0x800000, 0x800000)

/-- A 24-bit pattern spells a row (`30_encoding.md` rule R70). -/
def spells (u : BitVec 24) (row : String × BitVec 24 × BitVec 24) : Bool := decide (u &&& row.2.2 = row.2.1)

/-- The target field of an instruction. -/
def targetOf : Instr → AddressField
  | .add _ _ t _ _ => t
  | .sub _ _ t _ _ => t
  | .and _ _ t _ _ => t
  | .bic _ _ t _ _ => t
  | .or _ _ t _ _ => t
  | .xor _ _ t _ _ => t
  | .inertOp0 _ _ t _ _ => t
  | .inertOp7 _ _ _ t _ _ => t
  | .inertOp8To15 _ _ _ t _ _ => t
  | .inertOp16To31 _ _ _ t _ _ => t
  | .inertOp32To63 _ _ _ t _ _ => t

/-! ## A generation as rules -/

/-- `EA(f, i)` on the pre-step cells (`41_address.md` rule R100). -/
def State.effectiveAddress (s : State) (f : AddressField) (i : Nat) : Nat := s.arrays.effectiveAddress f i

/-- The Word at `EA(f, i)` on the pre-step cells. -/
def State.source (s : State) (f : AddressField) (i : Nat) : Int := s.arrays.source f i

/-- `req(i)` (`43_commit.md` rule R131, rule R132): the destination and value that cell `i` asks for, with its own
pre-step owner. -/
def State.requestOf (s : State) (i : Nat) : Option Request :=
  (s.arrays.demand i).map (fun p => ⟨p.1, p.2, (s.mem.load i).owner⟩)

/-- The writers whose request targets `d` (`43_commit.md` rule R132, rule R133): `cnt(d)` is their number. -/
def State.writersOf (s : State) (d : Nat) : List Nat := s.arrays.writersOf d

/-- The pre-step state as cell `i` sees it when it is evaluated alone. -/
def State.atSite (s : State) (i : Nat) : State := { s with site := i, requests := [] }

/-- The requests an outcome carries. -/
def requestsIn : Host.Outcome State Fault Refusal → List Request
  | .next t => t.requests
  | .fault _ => []
  | .refused _ => []

/-! ## The assembler's effect -/

/-- Words written one after another from an address on (`45_host_port_and_assembler.md` rule R165). -/
def State.writeAll (s : State) (address : Int) (owner : Owner) : List Int → State
  | [] => s
  | w :: ws => State.writeAll (s.write address w owner) (address + 1) owner ws

/-- The bodies of the emitting lines (`45_host_port_and_assembler.md` rule R161). -/
def bodies (lines : List SourceLine) : List Text := (lines.filter SourceLine.emits).map SourceLine.body

/-! ## Written literals -/

/-- A literal as it is written, without blanks: the concrete syntax of `30_encoding.md` rule R78, groups and all. -/
inductive Written where
  | number (digits : Text)
  | negative (digits : Text)
  | label (name : Text)
  | group (a : Written)
  | add (a b : Written)
  | sub (a b : Written)
  | mul (a b : Written)
  | div (a b : Written)
deriving DecidableEq, Repr

/-- The characters of a written literal. -/
def Written.spell : Written → Text
  | .number ds => ds
  | .negative ds => '-' :: ds
  | .label n => n
  | .group a => '(' :: a.spell ++ [')']
  | .add a b => a.spell ++ '+' :: b.spell
  | .sub a b => a.spell ++ '-' :: b.spell
  | .mul a b => a.spell ++ '*' :: b.spell
  | .div a b => a.spell ++ '/' :: b.spell

/-- The expression a written literal stands for. -/
def Written.expr : Written → Expr
  | .number ds => .number (digitsValue ds)
  | .negative ds => .number (-(digitsValue ds : Int))
  | .label n => .label n
  | .group a => a.expr
  | .add a b => .add a.expr b.expr
  | .sub a b => .sub a.expr b.expr
  | .mul a b => .mul a.expr b.expr
  | .div a b => .div a.expr b.expr

/-- How tightly a written literal binds: a sum 0, a product 1, anything else 2. -/
def Written.binding : Written → Nat
  | .number _ => 2
  | .negative _ => 2
  | .label _ => 2
  | .group _ => 2
  | .add _ _ => 0
  | .sub _ _ => 0
  | .mul _ _ => 1
  | .div _ _ => 1

/-- A written literal whose tree is the one its characters have under the usual precedence, `*` and `/` before `+`
and `-`, each from left to right (`92_eei_decisions.md` D23), with decimal numerals and label names as leaves. -/
def Written.wf : Written → Prop
  | .number ds => (parseDigits ds).isSome = true
  | .negative ds => (parseDigits ds).isSome = true
  | .label n => (parseName n).isSome = true
  | .group a => a.wf
  | .add a b => a.wf ∧ b.wf ∧ 1 ≤ b.binding
  | .sub a b => a.wf ∧ b.wf ∧ 1 ≤ b.binding
  | .mul a b => a.wf ∧ b.wf ∧ 1 ≤ a.binding ∧ 2 ≤ b.binding
  | .div a b => a.wf ∧ b.wf ∧ 1 ≤ a.binding ∧ 2 ≤ b.binding

end Sys2Proof.Machine
end

