-- ==== Sys2Proof/Certificates/Slice0/Obligations.lean ====
section
/-! DEFINITION. The statements for the provers. Each docstring names the rule of spec/ it formalises; where a
clause rests on one of the spec's own decisions or on a choice of the model, the docstring says so. -/

open Sys2Proof Sys2Proof.Machine

/-! ## The codec -/

/-- `30_encoding.md` rule R68: (a) the round trip of fields, (b) the round trip of Words, (c) decoding is a
bijection between patterns and fields. Clauses (b) and (c) are the spec's derivations from its rule R66 and
rule R67, which rest on its decisions D4 and D5. -/
def Obligations.CodecLaws : Prop :=
  (∀ f : Fields, f.wf → unpack (pack f) = f) ∧
  (∀ w : Int, pack (unpack w) = w % 2 ^ 24) ∧
  (∀ w : Int, pack (unpack w) = w ↔ 0 ≤ w ∧ w < 2 ^ 24) ∧
  (∀ u : BitVec 24, (unpackBits u).wf) ∧
  (∀ f : Fields, f.wf → ∃ u : BitVec 24, unpackBits u = f ∧ ∀ v : BitVec 24, unpackBits v = f → v = u)

/-- `30_encoding.md` rule R67 with the field codes of rule R65: the packed Word as a sum, in 0..2^24-1. That the
Word is not negative is the spec's decision D5. -/
def Obligations.PackIsTheSumOfItsParts : Prop :=
  ∀ f : Fields, f.wf →
    let enc := fun a : AddressField => (if a.indirect then 8 else 0) + a.offset % 8
    pack f = f.op.toNat * 2 ^ 18 + f.cc.toNat * 2 ^ 16 + enc f.ca * 2 ^ 12 + enc f.t * 2 ^ 8 +
      enc f.s1 * 2 ^ 4 + enc f.s2 ∧
    0 ≤ pack f ∧ pack f ≤ 2 ^ 24 - 1

/-- `30_encoding.md` rule R66 with the fields of rule R63, by division and remainder of the Word: opcode,
condition code, and for each address field the indirect flag and the offset (subtract 8 from 4 on). Only the
Word modulo 2^24 matters, which is the spec's decision D4. -/
def Obligations.UnpackReadsTheFieldPositions : Prop :=
  (∀ w : Int,
    let field := fun (a : AddressField) (shift : Int) =>
      (a.indirect = true ↔ w / (8 * shift) % 2 = 1) ∧
      a.offset = if w / shift % 8 ≥ 4 then w / shift % 8 - 8 else w / shift % 8
    ((unpack w).op.toNat : Int) = w / 2 ^ 18 % 64 ∧ ((unpack w).cc.toNat : Int) = w / 2 ^ 16 % 4 ∧
    field (unpack w).ca (2 ^ 12) ∧ field (unpack w).t (2 ^ 8) ∧ field (unpack w).s1 (2 ^ 4) ∧
    field (unpack w).s2 1) ∧
  (∀ v w : Int, v % 2 ^ 24 = w % 2 ^ 24 → unpack v = unpack w)

/-- `30_encoding.md` rule R63: of the four bits of an address field bit 3 is the indirect flag and bits [2:0] are
the offset, less 8 where their unsigned value is at least 4, which yields -4..3. -/
def Obligations.AddressFieldDecoding : Prop :=
  ∀ f : BitVec 4,
    (decodeField f).indirect = f.getLsbD 3 ∧
    (decodeField f).offset =
      (if 4 ≤ (f.toNat % 8 : Int) then (f.toNat % 8 : Int) - 8 else (f.toNat % 8 : Int)) ∧
    -4 ≤ (decodeField f).offset ∧ (decodeField f).offset ≤ 3

/-- `30_encoding.md` rule R64: the sixteen values of an address field, each with its flag, offset and assembler
spelling. The spec marks the table as derived from its rule R63. -/
def Obligations.AddressFieldTable : Prop :=
  ∀ row ∈ ([(0x0, false, 0, ['0']), (0x1, false, 1, ['1']), (0x2, false, 2, ['2']), (0x3, false, 3, ['3']),
      (0x4, false, -4, ['-', '4']), (0x5, false, -3, ['-', '3']), (0x6, false, -2, ['-', '2']),
      (0x7, false, -1, ['-', '1']), (0x8, true, 0, ['@', '0']), (0x9, true, 1, ['@', '1']),
      (0xA, true, 2, ['@', '2']), (0xB, true, 3, ['@', '3']), (0xC, true, -4, ['@', '-', '4']),
      (0xD, true, -3, ['@', '-', '3']), (0xE, true, -2, ['@', '-', '2']), (0xF, true, -1, ['@', '-', '1'])] :
      List (BitVec 4 × Bool × Int × Text)),
    decodeField row.1 = ⟨row.2.1, row.2.2.1⟩ ∧ encodeField ⟨row.2.1, row.2.2.1⟩ = row.1 ∧
      spellField ⟨row.2.1, row.2.2.1⟩ = row.2.2.2 ∧
      parseOperand row.2.2.2 = some ⟨row.2.1, .number row.2.2.1⟩

/-- Derived from `30_encoding.md` rule R66 to rule R68: for every choice of the parameters and every
instruction with an encoding, decoding its Word gives the instruction back. -/
def Obligations.DecodeOfEncode : Prop :=
  ∀ (cfg : Config) (i : Instr), cfg.wf → i.wf cfg = true → decode cfg (encode cfg i) = i

/-- Derived from `30_encoding.md` rule R66 to rule R68 and rule R71: for every choice of the parameters every
24-bit pattern is the encoding of the well-formed instruction it decodes to. -/
def Obligations.EncodeOfDecode : Prop :=
  ∀ (cfg : Config) (u : BitVec 24), cfg.wf →
    (decodeBits cfg u).wf cfg = true ∧ encodeBits cfg (decodeBits cfg u) = u

/-- `30_encoding.md` rule R70: with the default maps every 24-bit pattern spells exactly one row of the opcode
table, the row of the instruction it decodes to. The numbers are the spec's decision D6. -/
def Obligations.EveryPatternSpellsItsOwnRowOnly : Prop :=
  ∀ u : BitVec 24, opcodeTable.filter (spells u) = [rowOf (decodeBits Config.default u)]

/-- `40_decode_condition.md` rule R91, for every choice of the parameters: an opcode is recognised as an
operation exactly where it is that operation's number, a Word with any other opcode does nothing, and with the
default map the recognised opcodes are 1 to 6. -/
def Obligations.RecognisedOpcodes : Prop :=
  (∀ (cfg : Config) (op : BitVec 6) (o : Operation), cfg.wf →
    (cfg.operationOf op = some o ↔ op = cfg.opnum o)) ∧
  (∀ (s : State) (w : Int), s.cfg.operationOf (unpack w).op = none → exec (decode s.cfg w) s = .next s) ∧
  (∀ op : BitVec 6, (Config.default.operationOf op).isSome = true ↔ 1 ≤ op.toNat ∧ op.toNat ≤ 6)

/-- Words written out from the spec's encoding, one of every row of the opcode table, decode to what the spec says of
them. The words are those of `95_test_vectors.md` 2.1, but for 0x200000 and 0x400000, which are the match values of
the rows INERT.op8_15 and INERT.op16_31 in `30_encoding.md` section 4. A sanity statement. The numbers are the
spec's decisions D6 and D7. -/
def Obligations.WrittenOutWordsDecode : Prop :=
  decodeTableWord 24 0x04ACB7 = some (.add .zero (.pointer 2) (.pointer (-4)) (.pointer 3) (.direct (-1))) ∧
  decodeTableWord 24 0x08ACB7 = some (.sub .zero (.pointer 2) (.pointer (-4)) (.pointer 3) (.direct (-1))) ∧
  decodeTableWord 24 0x0F0112 = some (.and .nonZero (.direct 0) (.direct 1) (.direct 1) (.direct 2)) ∧
  decodeTableWord 24 0x130112 = some (.bic .nonZero (.direct 0) (.direct 1) (.direct 1) (.direct 2)) ∧
  decodeTableWord 24 0x170112 = some (.or .nonZero (.direct 0) (.direct 1) (.direct 1) (.direct 2)) ∧
  decodeTableWord 24 0x1AC9B6 = some (.xor .negative (.pointer (-4)) (.pointer 1) (.pointer 3) (.direct (-2))) ∧
  decodeTableWord 24 0x00002A = some (.inertOp0 .zero (.direct 0) (.direct 0) (.direct 2) (.pointer 2)) ∧
  decodeTableWord 24 0x1C0000 = some (.inertOp7 7 .zero (.direct 0) (.direct 0) (.direct 0) (.direct 0)) ∧
  decodeTableWord 24 0x200000 = some (.inertOp8To15 8 .zero (.direct 0) (.direct 0) (.direct 0) (.direct 0)) ∧
  decodeTableWord 24 0x400000 = some (.inertOp16To31 16 .zero (.direct 0) (.direct 0) (.direct 0) (.direct 0)) ∧
  decodeTableWord 24 0x800000 = some (.inertOp32To63 32 .zero (.direct 0) (.direct 0) (.direct 0) (.direct 0))

/-! ## Addresses -/

/-- `20_memory.md` rule R41: for every core size and every integer, `norm` is the one index in 0..N-1 that
differs from the integer by a multiple of N; it is the doubled form with a floor modulus and with a truncating
remainder alike; and the rule's worked examples. -/
def Obligations.NormIsTheFloorModulus : Prop :=
  (∀ (n : Nat) (z : Int), 0 < n →
    norm n z < n ∧ (n : Int) ∣ z - norm n z ∧ (∀ r : Nat, r < n → (n : Int) ∣ z - r → r = norm n z) ∧
    (norm n z : Int) = (z % n + n) % n ∧ (norm n z : Int) = (z.tmod n + n).tmod n) ∧
  norm 8 10 = 2 ∧ norm 8 (-1) = 7 ∧ norm 8 (-9) = 7 ∧ norm 8 8 = 0 ∧ norm 8 0 = 0 ∧ (∀ z, norm 1 z = 0)

/-- `41_address.md` rule R100, for the executing cell of any state: the address of a direct field is
`norm(i + offset)`, that of an indirect field adds the whole Word of the pointer cell to the pointer cell's own
index, and both are cells of the core. -/
def Obligations.EffectiveAddressOfBothModes : Prop :=
  ∀ (s : State) (offset : Int),
    s.ea ⟨false, offset⟩ = norm s.size (s.site + offset) ∧
    (let p := norm s.size (s.site + offset)
     s.ea ⟨true, offset⟩ = norm s.size (p + s.memRead p)) ∧
    (0 < s.size → s.ea ⟨false, offset⟩ < s.size ∧ s.ea ⟨true, offset⟩ < s.size)

/-- Derived from `41_address.md` rule R103 and rule R106: reducing the pointer modulo N first gives the same
cell; with one cell every address is 0; with four cells offsets -4 and 0, and -1 and 3, name the same cell; a
pointer cell that holds 0 makes `@k` the same as `k`; and `@0` at cell i uses the cell's own Word. -/
def Obligations.AddressCorners : Prop :=
  ∀ (s : State) (offset : Int), 0 < s.size →
    (let p := norm s.size (s.site + offset)
     s.ea ⟨true, offset⟩ = norm s.size (p + norm s.size (s.memRead p))) ∧
    (s.size = 1 → s.ea ⟨false, offset⟩ = 0 ∧ s.ea ⟨true, offset⟩ = 0) ∧
    (s.size = 4 → s.ea (.direct (-4)) = s.ea (.direct 0) ∧ s.ea (.direct (-1)) = s.ea (.direct 3)) ∧
    (s.memRead (s.site + offset) = 0 → s.ea ⟨true, offset⟩ = s.ea ⟨false, offset⟩) ∧
    (s.site < s.size → s.ea (.pointer 0) = norm s.size (s.site + s.memRead s.site))

/-! ## The condition and the operations -/

/-- `40_decode_condition.md` rule R92: what each condition tests, on the Word at the condition-address. That the
whole Word is compared is the spec's decision D21. -/
def Obligations.ConditionTests : Prop :=
  ∀ (s : State) (ca : AddressField),
    (s.holds .zero ca = true ↔ s.memRead (s.ea ca) = 0) ∧
    (s.holds .positive ca = true ↔ s.memRead (s.ea ca) > 0) ∧
    (s.holds .negative ca = true ↔ s.memRead (s.ea ca) < 0) ∧
    (s.holds .nonZero ca = true ↔ s.memRead (s.ea ca) ≠ 0)

/-- `40_decode_condition.md` rule R93: the executing cell makes a request exactly where its condition holds and
its opcode is recognised; otherwise its instruction leaves the state as it is. -/
def Obligations.WriterExactlyWhereConditionHolds : Prop :=
  ∀ s : State,
    let f := unpack (s.memRead s.site)
    let writer := s.holds (s.cfg.condOf f.cc) f.ca = true ∧ (s.cfg.operationOf f.op).isSome = true
    (writer → ∃ r, exec s.fetch s = .next { s with requests := s.requests ++ [r] }) ∧
    (¬ writer → exec s.fetch s = .next s)

/-- `40_decode_condition.md` rule R93, its sentence on an unsatisfied condition, for each of the six operations
and all operands: no write request, and no other effect. -/
def Obligations.FailedConditionMakesNoRequest : Prop :=
  ∀ (s : State) (c : Cond) (ca t s1 s2 : AddressField), s.holds c ca = false →
    exec (.add c ca t s1 s2) s = .next s ∧ exec (.sub c ca t s1 s2) s = .next s ∧
    exec (.and c ca t s1 s2) s = .next s ∧ exec (.bic c ca t s1 s2) s = .next s ∧
    exec (.or c ca t s1 s2) s = .next s ∧ exec (.xor c ca t s1 s2) s = .next s

/-- `42_alu.md` rule R112, with the request of rule R110: where the condition holds, ADD completes with one
request for the target's cell, by the executing cell's owner, of the one Word in the range of XLEN bits that is
congruent to the sum of the sources modulo 2^XLEN. Its Word has the opcode OPNUM(ADD). -/
def Obligations.AddRequestsTheWrappedSum : Prop :=
  ∀ (s : State) (c : Cond) (ca t s1 s2 : AddressField),
    24 ≤ s.cfg.xlen → s.holds c ca = true →
    (unpack (encode s.cfg (.add c ca t s1 s2))).op = s.cfg.opAdd ∧
    ∃ r : Int,
      exec (.add c ca t s1 s2) s =
        .next { s with requests := s.requests ++ [⟨s.ea t, r, s.ownerRead s.site⟩] } ∧
      inRange s.cfg.xlen r ∧ (2 ^ s.cfg.xlen : Int) ∣ s.memRead (s.ea s1) + s.memRead (s.ea s2) - r

/-- `42_alu.md` rule R113, with the request of rule R110: the same for SUB and the difference source1 minus
source2. Its Word has the opcode OPNUM(SUB). The order of the sources is the spec's decision D8. -/
def Obligations.SubRequestsTheWrappedDifference : Prop :=
  ∀ (s : State) (c : Cond) (ca t s1 s2 : AddressField),
    24 ≤ s.cfg.xlen → s.holds c ca = true →
    (unpack (encode s.cfg (.sub c ca t s1 s2))).op = s.cfg.opSub ∧
    ∃ r : Int,
      exec (.sub c ca t s1 s2) s =
        .next { s with requests := s.requests ++ [⟨s.ea t, r, s.ownerRead s.site⟩] } ∧
      inRange s.cfg.xlen r ∧ (2 ^ s.cfg.xlen : Int) ∣ s.memRead (s.ea s1) - s.memRead (s.ea s2) - r

/-- `42_alu.md` rule R114, with the request of rule R110: AND completes with a request of the Word whose every
bit below XLEN, the sign bit included, is the and of the sources' bits. Its Word has the opcode OPNUM(AND). -/
def Obligations.AndRequestsTheBitwiseAnd : Prop :=
  ∀ (s : State) (c : Cond) (ca t s1 s2 : AddressField),
    24 ≤ s.cfg.xlen → s.holds c ca = true →
    (unpack (encode s.cfg (.and c ca t s1 s2))).op = s.cfg.opAnd ∧
    ∃ r : Int,
      exec (.and c ca t s1 s2) s =
        .next { s with requests := s.requests ++ [⟨s.ea t, r, s.ownerRead s.site⟩] } ∧
      inRange s.cfg.xlen r ∧
      ∀ k < s.cfg.xlen,
        r.testBit k = ((s.memRead (s.ea s1)).testBit k && (s.memRead (s.ea s2)).testBit k)

/-- `42_alu.md` rule R115, with the request of rule R110: BIC clears in source1 every bit below XLEN that is set
in source2. Its Word has the opcode OPNUM(BIC). -/
def Obligations.BicRequestsTheBitClear : Prop :=
  ∀ (s : State) (c : Cond) (ca t s1 s2 : AddressField),
    24 ≤ s.cfg.xlen → s.holds c ca = true →
    (unpack (encode s.cfg (.bic c ca t s1 s2))).op = s.cfg.opBic ∧
    ∃ r : Int,
      exec (.bic c ca t s1 s2) s =
        .next { s with requests := s.requests ++ [⟨s.ea t, r, s.ownerRead s.site⟩] } ∧
      inRange s.cfg.xlen r ∧
      ∀ k < s.cfg.xlen,
        r.testBit k = ((s.memRead (s.ea s1)).testBit k && !(s.memRead (s.ea s2)).testBit k)

/-- `42_alu.md` rule R116, with the request of rule R110: OR, bit by bit below XLEN. Its Word has the opcode
OPNUM(OR). -/
def Obligations.OrRequestsTheBitwiseOr : Prop :=
  ∀ (s : State) (c : Cond) (ca t s1 s2 : AddressField),
    24 ≤ s.cfg.xlen → s.holds c ca = true →
    (unpack (encode s.cfg (.or c ca t s1 s2))).op = s.cfg.opOr ∧
    ∃ r : Int,
      exec (.or c ca t s1 s2) s =
        .next { s with requests := s.requests ++ [⟨s.ea t, r, s.ownerRead s.site⟩] } ∧
      inRange s.cfg.xlen r ∧
      ∀ k < s.cfg.xlen,
        r.testBit k = ((s.memRead (s.ea s1)).testBit k || (s.memRead (s.ea s2)).testBit k)

/-- `42_alu.md` rule R117, with the request of rule R110: XOR, bit by bit below XLEN. Its Word has the opcode
OPNUM(XOR). -/
def Obligations.XorRequestsTheBitwiseExclusiveOr : Prop :=
  ∀ (s : State) (c : Cond) (ca t s1 s2 : AddressField),
    24 ≤ s.cfg.xlen → s.holds c ca = true →
    (unpack (encode s.cfg (.xor c ca t s1 s2))).op = s.cfg.opXor ∧
    ∃ r : Int,
      exec (.xor c ca t s1 s2) s =
        .next { s with requests := s.requests ++ [⟨s.ea t, r, s.ownerRead s.site⟩] } ∧
      inRange s.cfg.xlen r ∧
      ∀ k < s.cfg.xlen,
        r.testBit k = ((s.memRead (s.ea s1)).testBit k ^^ (s.memRead (s.ea s2)).testBit k)

/-- `42_alu.md` rule R118: every inert instruction completes, in every state and with all operands, and makes no
request, no change and no fault; and every Word whose opcode is not in the range of OPNUM decodes to such an
instruction and does the same, for every choice of the parameters. -/
def Obligations.InertInstructionsDoNothing : Prop :=
  (∀ (s : State) (op : BitVec 6) (c : Cond) (ca t s1 s2 : AddressField),
    exec (.inertOp0 c ca t s1 s2) s = .next s ∧ exec (.inertOp7 op c ca t s1 s2) s = .next s ∧
    exec (.inertOp8To15 op c ca t s1 s2) s = .next s ∧ exec (.inertOp16To31 op c ca t s1 s2) s = .next s ∧
    exec (.inertOp32To63 op c ca t s1 s2) s = .next s) ∧
  (∀ (s : State) (w : Int), (unpack w).op ∉ s.cfg.assigned →
    (∃ c ca t s1 s2, decode s.cfg w = inertOf (unpack w).op c ca t s1 s2) ∧
      exec (decode s.cfg w) s = .next s)

/-- The frame of every instruction, derived from `42_alu.md` rule R110, rule R118 and rule R119 and
`20_memory.md` rule R45, rule R47: every instruction answers a next state, and that state has the parameters,
the size, the counter and every word and owner it had before; the requests are the same, or have one more, for
the cell of the instruction's own target field and by the executing cell's owner. -/
def Obligations.InstructionFrame : Prop :=
  ∀ (i : Instr) (s : State),
    ∃ t, exec i s = .next t ∧ t.cfg = s.cfg ∧ t.size = s.size ∧ t.site = s.site ∧
      t.instructionCounter = s.instructionCounter ∧
      (∀ z : Int, t.memRead z = s.memRead z ∧ t.ownerRead z = s.ownerRead z) ∧
      (t.requests = s.requests ∨
        ∃ v : Int, t.requests = s.requests ++ [⟨s.ea (targetOf i), v, s.ownerRead s.site⟩])

/-- Derived from `42_alu.md` rule R120 (b): with both sources the same cell, SUB, BIC and XOR ask for 0, AND and
OR for the source's own Word, and ADD for twice it, wrapped. -/
def Obligations.EqualSources : Prop :=
  ∀ (s : State) (c : Cond) (ca t f : AddressField),
    24 ≤ s.cfg.xlen → (∀ z : Int, inRange s.cfg.xlen (s.memRead z)) → s.holds c ca = true →
    let ask := fun v : Int =>
      Host.Outcome.next (φ := Fault) (ρ := Refusal)
        { s with requests := s.requests ++ [⟨s.ea t, v, s.ownerRead s.site⟩] }
    exec (.sub c ca t f f) s = ask 0 ∧ exec (.bic c ca t f f) s = ask 0 ∧ exec (.xor c ca t f f) s = ask 0 ∧
    exec (.and c ca t f f) s = ask (s.memRead (s.ea f)) ∧ exec (.or c ca t f f) s = ask (s.memRead (s.ea f)) ∧
    exec (.add c ca t f f) s = ask (wrap s.cfg.xlen (2 * s.memRead (s.ea f)))

/-- `30_encoding.md` rule R72: for every choice of the parameters the all-zero Word decodes to opcode 0,
condition code 0 and four direct fields of offset 0, and a cell that holds it is never a writer, in any state. -/
def Obligations.AllZeroWordIsNeverAWriter : Prop :=
  unpack 0 = ⟨0, 0, .direct 0, .direct 0, .direct 0, .direct 0⟩ ∧
  ∀ s : State, s.cfg.wf → s.site < s.size → s.memRead s.site = 0 → exec s.fetch s = .next s

/-- Derived from `70_reset_and_hazards.md` rule R216: with the default maps a Word does nothing, in any state,
where its bits [23:18] are 0 or 7 to 63, which is so for every value in -2^18..2^18-1. -/
def Obligations.SmallDataIsInert : Prop :=
  ∀ (s : State) (w : Int), s.cfg = Config.default →
    (w / 2 ^ 18 % 64 = 0 ∨ 7 ≤ w / 2 ^ 18 % 64 → exec (decode s.cfg w) s = .next s) ∧
    (-2 ^ 18 ≤ w ∧ w ≤ 2 ^ 18 - 1 → exec (decode s.cfg w) s = .next s)

/-- Derived from `30_encoding.md` rule R82, `40_decode_condition.md` rule R95 (b) and
`70_reset_and_hazards.md` rule R218: with the default maps, at a cell that holds a packed instruction of any
operation with any operands, the default condition `IF.NZ 0` holds and `IF.Z 0` does not. -/
def Obligations.DefaultConditionHoldsOnPackedInstructions : Prop :=
  ∀ (s : State) (o : Operation) (c : Cond) (ca t s1 s2 : AddressField),
    s.cfg = Config.default → s.site < s.size →
    s.memRead s.site = encode s.cfg (o.instr c ca t s1 s2) →
    s.holds .nonZero (.direct 0) = true ∧ s.holds .zero (.direct 0) = false

/-! ## The generation -/

/-- `40_decode_condition.md` rule R90 and `43_commit.md` rule R131, rule R137, derived: a step of a core with
cells runs `exec` of the decoded instruction at every cell. What the step adds around `exec` is the whole of it:
each cell's instruction runs at its own index (`State.atSite`), the requests of all cells are collected and
committed, the counter goes up by one, and the fields a step works with are at rest. -/
def Obligations.StepRunsEveryDecodedInstruction : Prop :=
  ∀ s : State, 0 < s.size →
    step s = .next
      { s with
        mem := commitMem
          ((List.range s.size).flatMap fun (i : Nat) =>
            requestsIn (exec (decode s.cfg (s.memRead i)) (s.atSite i))) s.mem
        instructionCounter := s.instructionCounter + 1
        site := 0
        requests := [] }

/-- `43_commit.md` rule R131, rule R132, rule R134, rule R136 and rule R137: for every core size, every choice
of the parameters and every canonical memory, a step answers a next state in which each cell with no writer
keeps its Word and owner, each cell with exactly one writer has that writer's value and pre-step owner, each
cell with two or more writers keeps its Word and owner, and the counter is one more. The writers and their
requests are those of the rules (`State.requestOf`), computed from the pre-step cells alone. -/
def Obligations.StepIsTheGeneration : Prop :=
  ∀ s : State, 0 < s.size → Memory.wf s.mem →
    ∃ t, step s = .next t ∧ t.cfg = s.cfg ∧ t.size = s.size ∧
      t.instructionCounter = s.instructionCounter + 1 ∧ t.site = 0 ∧ t.requests = [] ∧
      ∀ d < s.size,
        ((s.writersOf d).length = 0 → t.mem.load d = s.mem.load d) ∧
        (∀ (i : Nat) (r : Request), s.writersOf d = [i] → s.requestOf i = some r →
          t.mem.load d = ⟨r.value, r.owner⟩ ∧ r.owner = (s.mem.load i).owner) ∧
        (2 ≤ (s.writersOf d).length → t.mem.load d = s.mem.load d)

/-- `43_commit.md` rule R133 with rule R139 (a), derived: whenever two different cells ask for the same
destination, with whatever values and owners, that destination's Word and owner are unchanged by the step. -/
def Obligations.ConflictKeepsTheDestination : Prop :=
  ∀ (s : State) (i j : Nat) (p q : Request), 0 < s.size → Memory.wf s.mem →
    i < s.size → j < s.size → i ≠ j → s.requestOf i = some p → s.requestOf j = some q → p.dest = q.dest →
    ∃ t, step s = .next t ∧ t.memRead p.dest = s.memRead p.dest ∧ t.ownerRead p.dest = s.ownerRead p.dest

/-- `43_commit.md` rule R135: for any requests, in any visiting order, the touched-set algorithm gives the
memory that the writer count defines; and the commit itself does not depend on the order. -/
def Obligations.TouchedSetGivesTheCommit : Prop :=
  ∀ (m : Memory) (reqs visited : List Request), Memory.wf m → visited.Perm reqs →
    touchedSetCommit visited m = commitMem reqs m ∧ commitMem visited m = commitMem reqs m

/-- `43_commit.md` rule R138: a step does not change N; a cell it changes has exactly one writer; every owner
after it is an owner from before; and nothing outside 0..N-1 is listed afterwards. -/
def Obligations.WhatAStepCannotDo : Prop :=
  ∀ s t : State, s.Inv → step s = .next t →
    t.size = s.size ∧
    (∀ d < s.size, t.mem.load d ≠ s.mem.load d → (s.writersOf d).length = 1) ∧
    (∀ d < s.size, ∃ j < s.size, (t.mem.load d).owner = (s.mem.load j).owner) ∧
    (∀ p ∈ t.mem, p.1 < t.size)

/-- The invariant of a core between operations is kept by every step, from every state that meets it, for every
choice of the parameters (`10_state.md` rule R31, `43_commit.md` rule R137, rule R138). That the two working
fields are at rest is the model's own part of it (assumption 1). -/
def Obligations.StepKeepsTheInvariant : Prop :=
  ∀ s t : State, s.Inv → step s = .next t → t.Inv

/-- The state after reset meets the invariant. -/
def Obligations.ResetMeetsTheInvariant : Prop := State.reset.Inv

/-- `10_state.md` rule R33, zeroed mode, at `State.reset`: every Word is 0, all cells share one owner, and the
counter is 0. The size of `State.reset` is the model's choice (assumption 4) and no clause rests on it. -/
def Obligations.ResetIsZeroed : Prop :=
  (∀ z : Int, State.reset.memRead z = 0) ∧ (∃ b : Owner, ∀ z : Int, State.reset.ownerRead z = b) ∧
  State.reset.instructionCounter = 0

/-- The model's choice of assumption 6: a step of a State with no cells, which no construction makes, is the
fault `noCore`, and no other state's step is a fault or a refusal. -/
def Obligations.OnlyAnEmptyCoreStops : Prop :=
  ∀ s : State, (s.size = 0 → step s = .fault .noCore) ∧ (0 < s.size → ∃ t, step s = .next t)

/-- Owners never enter a condition, an address or an operand (`10_state.md` rule R21), and the type of owner
identities is a parameter (`00_scope.md` rule R5, `92_eei_decisions.md` D11). Two cores that differ in owners alone
have the same Words, and the same counter, after a step. And for every type `O` of owner identities: every core over
`O` is shown by a State under some reading of its owner names; whatever core over `O` a State shows, its step shows
that core's step, its host writes and assemblies show that core's, and every identity of `O` has a name; and the two
constructions show that core's. The naming of identities by numbers is the model's choice (assumption 5). -/
def Obligations.OwnersNeverReachWords : Prop :=
  (∀ s t s' t' : State, s.Inv → t.Inv → s.cfg = t.cfg → s.size = t.size →
    s.instructionCounter = t.instructionCounter → (∀ z : Int, s.memRead z = t.memRead z) →
    step s = .next s' → step t = .next t' →
    s'.instructionCounter = t'.instructionCounter ∧ ∀ z : Int, s'.memRead z = t'.memRead z) ∧
  ∀ O : Type,
    (∀ c : CoreOver O, c.cfg.wf → 0 < c.size → (∀ d < c.size, inRange c.cfg.xlen (c.word d)) →
      ∃ (s : State) (name : Owner → O), s.Inv ∧ s.Shows name c) ∧
    (∀ (s : State) (name : Owner → O) (c : CoreOver O), s.Inv → s.Shows name c →
      (∃ t, step s = .next t ∧ t.Shows name c.step) ∧
      (∀ (i w : Int) (o : Owner), (s.write i w o).Shows name (c.write i w (name o))) ∧
      (∀ (i : Int) (o : Owner) (ws : List Int), (s.writeAll i o ws).Shows name (c.writeAll i (name o) ws)) ∧
      ∀ x : O, ∃ (name' : Owner → O) (o : Owner), s.Shows name' c ∧ name' o = x) ∧
    (∀ (cfg : Config) (n : Nat) (black : O), 0 < n →
      ∃ s, construct cfg n .zeroed = .ok s ∧
        s.Shows (fun _ => black) (CoreOver.fresh cfg n (fun _ => 0) (fun _ => black))) ∧
    ∀ (cfg : Config) (n : Nat) (rng : RandomSource n) (owner : Nat → O), 0 < n → 24 ≤ cfg.xlen →
      (∀ d < n, inRange cfg.xlen (rng.word d)) →
      ∃ s name, construct cfg n (.randomized rng) = .ok s ∧
        s.Shows name (CoreOver.fresh cfg n rng.word owner)

/-- No instruction reads the counter (`10_state.md` rule R22, `60_exceptions.md` rule R197): a core with another
counter does the same, and its counter moves by the same one. -/
def Obligations.CounterIsNeverRead : Prop :=
  ∀ (s t : State) (n : Nat), 0 < s.size → step s = .next t →
    step { s with instructionCounter := n } = .next { t with instructionCounter := n + 1 }

/-- Circular symmetry, derived from `41_address.md` rule R100, rule R101 and `20_memory.md` rule R41: a core
whose cells are another core's cells moved round by k places steps to that core's next cells moved round by k
places. -/
def Obligations.StepCommutesWithRotation : Prop :=
  ∀ (s t s' t' : State) (k : Int), s.Inv → t.Inv → s.cfg = t.cfg → s.size = t.size →
    (∀ z : Int, t.cellAt (z + k) = s.cellAt z) → step s = .next s' → step t = .next t' →
    ∀ z : Int, t'.cellAt (z + k) = s'.cellAt z

/-- `70_reset_and_hazards.md` rule R213 and `30_encoding.md` rule R72, derived: a core of any size whose Words
are all 0, whatever its owners and parameters, steps to itself with the counter one higher. -/
def Obligations.ZeroedCoreIsAFixedPoint : Prop :=
  ∀ s : State, s.Inv → (∀ z : Int, s.memRead z = 0) →
    step s = .next { s with instructionCounter := s.instructionCounter + 1 }

/-- `70_reset_and_hazards.md` rule R218, derived: where the Word of cell i decodes to `XOR 0 0 0` under a
condition that holds, and no other cell asks for cell i, the step leaves the all-zero Word in cell i with its
own owner. -/
def Obligations.ClearingItselfStopsACell : Prop :=
  ∀ (s : State) (i : Nat) (c : Cond) (ca : AddressField), s.Inv → i < s.size →
    decode s.cfg (s.memRead i) = .xor c ca (.direct 0) (.direct 0) (.direct 0) →
    (s.atSite i).holds c ca = true →
    (∀ j < s.size, j ≠ i → ∀ r, s.requestOf j = some r → r.dest ≠ i) →
    ∃ t, step s = .next t ∧ t.memRead i = 0 ∧ t.ownerRead i = s.ownerRead i

/-- `42_alu.md` rule R110 with `43_commit.md` rule R134: where the Word of cell i decodes to one of the six
operations, its condition holds, and no other cell asks for its target, the step stores the operation's result on
the pre-step sources in the target's cell, with the pre-step owner of cell i. -/
def Obligations.LoneWriterStoresItsResult : Prop :=
  ∀ (s : State) (i : Nat) (o : Operation) (c : Cond) (ca t s1 s2 : AddressField), s.Inv → i < s.size →
    decode s.cfg (s.memRead i) = o.instr c ca t s1 s2 → (s.atSite i).holds c ca = true →
    let d := (s.atSite i).ea t
    (∀ j < s.size, j ≠ i → ∀ r, s.requestOf j = some r → r.dest ≠ d) →
    ∃ u, step s = .next u ∧
      u.memRead d = aluOf o s.cfg.xlen (s.memRead ((s.atSite i).ea s1)) (s.memRead ((s.atSite i).ea s2)) ∧
      u.ownerRead d = s.ownerRead i

/-! ## The host port -/

/-- `45_host_port_and_assembler.md` rule R150 and `10_state.md` rule R33, for every choice of the parameters: a
size that is not positive makes no core; a zeroed construction has every Word 0, one owner in all cells and
counter 0; a randomized one has in each cell the draw of its Word and the draw of its owner, owners pairwise
distinct, and counter 0; and no sequence of operations changes the size or the parameters afterwards. -/
def Obligations.ConstructMakesTheResetState : Prop :=
  (∀ (cfg : Config) (size : Int) (fill : Fill size.toNat), size ≤ 0 →
    construct cfg size fill = .error .rangeError) ∧
  (∀ (cfg : Config) (n : Nat), 0 < n →
    ∃ s, construct cfg n .zeroed = .ok s ∧ s.cfg = cfg ∧ s.size = n ∧ s.instructionCounter = 0 ∧
      (∀ d < n, s.read d = 0) ∧ ∃ b : Owner, ∀ d < n, s.ownerRead d = b) ∧
  (∀ (cfg : Config) (n : Nat) (rng : RandomSource n), 0 < n →
    (∀ d < n, inRange cfg.xlen (rng.word d)) → 24 ≤ cfg.xlen →
    ∃ s, construct cfg n (.randomized rng) = .ok s ∧ s.cfg = cfg ∧ s.size = n ∧ s.instructionCounter = 0 ∧
      (∀ d < n, s.read d = rng.word d ∧ s.ownerRead d = rng.owner d) ∧
      ∀ d < n, ∀ e < n, s.ownerRead d = s.ownerRead e → d = e) ∧
  (∀ (ops : List HostOp) (s t : State), performAll ops s = .next t → t.size = s.size ∧ t.cfg = s.cfg)

/-- Every constructed core meets the invariant, in both modes, derived from `10_state.md` rule R33. -/
def Obligations.ConstructedCoresMeetTheInvariant : Prop :=
  ∀ (cfg : Config) (size : Int) (fill : Fill size.toNat) (s : State), cfg.wf → construct cfg size fill = .ok s → s.Inv

/-- `45_host_port_and_assembler.md` rule R152 and rule R153: READ gives the Word of the cell an index reaches,
and WRITE of a Word replaces the Word and owner of that cell, for every integer index, leaves every other cell,
the counter and the size, and returns nothing but that. -/
def Obligations.ReadAndWrite : Prop :=
  ∀ (s : State) (i j : Int) (w : Int) (o : Owner), s.Inv → inRange s.cfg.xlen w →
    performHost (.read i) s = .next (.word (s.mem.load (norm s.size i)).word, s) ∧
    ∃ t, performHost (.write i w o) s = .next (.none, t) ∧
      t.instructionCounter = s.instructionCounter ∧ t.size = s.size ∧ t.cfg = s.cfg ∧
      t.read j = (if norm s.size j = norm s.size i then w else s.read j) ∧
      t.ownerRead j = if norm s.size j = norm s.size i then o else s.ownerRead j

/-- `45_host_port_and_assembler.md` rule R154: WORDS and OWNERS return the whole arrays, N entries each, entry d
that of cell d, and change nothing. -/
def Obligations.SnapshotsCopyTheArrays : Prop :=
  ∀ s : State, 0 < s.size →
    performHost .words s = .next (.words s.words, s) ∧ performHost .owners s = .next (.owners s.owners, s) ∧
    s.words.length = s.size ∧ s.owners.length = s.size ∧
    ∀ d < s.size, s.words[d]? = some (s.read d) ∧ s.owners[d]? = some (s.ownerRead d)

/-- `10_state.md` rule R22 and `45_host_port_and_assembler.md` rule R156: over any sequence of host operations
the counter goes up by exactly the number of STEPs among them, and CTR returns it. -/
def Obligations.CounterCountsTheSteps : Prop :=
  ∀ (ops : List HostOp) (s t : State), performAll ops s = .next t →
    t.instructionCounter = s.instructionCounter + ops.count .step ∧
    performHost .ctr t = .next (.count (s.instructionCounter + ops.count .step), t)

/-- The invariant is kept by every sequence of host operations, assemblies with errors among them, derived from
`10_state.md` rule R31 and `45_host_port_and_assembler.md` rule R173. -/
def Obligations.HostOperationsKeepTheInvariant : Prop :=
  ∀ (ops : List HostOp) (s t : State), s.Inv → performAll ops s = .next t → t.Inv

/-- Every host operation on a core between operations completes, derived from `45_host_port_and_assembler.md`
rule R173 and `60_exceptions.md` rule R191: it answers a reply and a next state, or it is an assembly that the
model refuses for one of the three reasons of assumptions 9 and 10. -/
def Obligations.HostOperationsComplete : Prop :=
  ∀ (op : HostOp) (s : State), s.Inv →
    (∃ reply t, performHost op s = .next (reply, t)) ∨
    (∃ text address owner, op = .assemble text address owner) ∧
      (performHost op s = .refused .literalOutOfRange ∨ performHost op s = .refused .literalDivision ∨
        performHost op s = .refused .unstatedLexeme)

/-! ## The assembler -/

/-- `30_encoding.md` rule R79 with rule R82 and rule R84, derived: the assembler reads the printed form of every
instruction with an encoding, and its form with the condition prefix written out, `IF.NZ 0` among them, as that
instruction's packed Word: as a line, at any position and under any labels, and as the whole text of a call, which
writes that one Word. The spelling of blanks is the model's choice (assumption 8). -/
def Obligations.PrintedInstructionsAssemble : Prop :=
  ∀ (o : Operation) (c : Cond) (ca t s1 s2 : AddressField), operandsWf ca t s1 s2 →
    ∀ text ∈ [spellInstruction o c ca t s1 s2, spellCondition c ca ++ spellAction o t s1 s2],
      (∀ (cfg : Config) (table : LabelTable) (pos : Nat),
        lineWord cfg table pos text = .ok (encode cfg (o.instr c ca t s1 s2))) ∧
      ∀ (s : State) (address : Int) (owner : Owner),
        assemble text address owner s =
          .done 1 [] (s.write address (encode s.cfg (o.instr c ca t s1 s2)) owner)

/-- `30_encoding.md` rule R81: a label in an address stands for its position less the instruction's own, a name
that is bound nowhere is a ReferenceError. -/
def Obligations.LabelOffsets : Prop :=
  ∀ (table : LabelTable) (pos : Nat) (indirect : Bool) (name : Text),
    (∀ p, table.find name = some p →
      Operand.resolve table pos ⟨indirect, .label name⟩ = .ok ⟨indirect, (p : Int) - pos⟩) ∧
    (table.find name = none →
      Operand.resolve table pos ⟨indirect, .label name⟩ = .error (.error .referenceError))

/-- `45_host_port_and_assembler.md` rule R168: an instruction whose four operands resolve assembles exactly where
all four offsets lie in -4..3, and is a RangeError otherwise. -/
def Obligations.OffsetsAreRangeChecked : Prop :=
  ∀ (cfg : Config) (table : LabelTable) (pos : Nat) (o : Operation) (c : Cond)
    (ca t s1 s2 : Operand) (fca ft f1 f2 : AddressField),
    ca.resolve table pos = .ok fca → t.resolve table pos = .ok ft →
    s1.resolve table pos = .ok f1 → s2.resolve table pos = .ok f2 →
    Statement.word cfg table pos (.instruction o c ca t s1 s2) =
      if operandsWf fca ft f1 f2 then .ok (encode cfg (o.instr c fca ft f1 f2))
      else .error (.error .rangeError)

/-- Derived from `30_encoding.md` rule R78 and the spec's decisions D22, D23 and D24. The characters of a written
literal are read as its expression, `*` and `/` before `+` and `-`, each from left to right, a group as its
contents, and digits in decimal; a line of them is a literal line unless it is an operation's mnemonic. The spec
leaves open which characters make a label name, that numerals are decimal with a minus before the digits, and that
such a line is a literal unless it is a mnemonic: these are the model's choices (assumption 8). A numeral has its own
value, a label stands for its position, or is a ReferenceError where it is bound nowhere; an exact quotient is the
quotient, any other division is refused. A literal line gives the value of its expression where that is a Word, and
is refused otherwise. -/
def Obligations.LiteralValues : Prop :=
  (∀ w : Written, w.wf → parseExpr w.spell = some w.expr ∧
    (parseOperation w.spell = none → parseStatement w.spell = some (.literal w.expr))) ∧
  (digitsValue [] = 0 ∧
    ∀ (ds : Text) (c : Char), digitsValue (ds ++ [c]) = 10 * digitsValue ds + (c.toNat - '0'.toNat)) ∧
  ∀ (cfg : Config) (table : LabelTable) (pos : Nat) (a b : Expr) (x y : Int) (name : Text),
    a.eval table = .ok x → b.eval table = .ok y →
    Statement.word cfg table pos (.literal a) =
      (if inRange cfg.xlen x then .ok x else .error (.refused .literalOutOfRange)) ∧
    (∀ n : Int, (Expr.number n).eval table = .ok n) ∧
    (Expr.add a b).eval table = .ok (x + y) ∧ (Expr.sub a b).eval table = .ok (x - y) ∧
    (Expr.mul a b).eval table = .ok (x * y) ∧
    (∀ q : Int, y ≠ 0 → x = q * y → (Expr.div a b).eval table = .ok q) ∧
    (y = 0 ∨ ¬ y ∣ x → (Expr.div a b).eval table = .error (.refused .literalDivision)) ∧
    (∀ p, table.find name = some p → (Expr.label name).eval table = .ok p) ∧
    (table.find name = none → (Expr.label name).eval table = .error (.error .referenceError))

/-- Derived from `45_host_port_and_assembler.md` rule R162: in a text with a name bound twice, wherever it stands and
whatever the other lines are, the call is a RedefinitionError and nothing is written; with no name bound twice pass 1
binds every label to the number of emitting lines before its line. That a malformed line counts as an emitting line,
and which characters make a label name, are the model's choices (assumption 8). -/
def Obligations.PassOneBindsOrRejects : Prop :=
  ∀ (lines : List SourceLine) (address : Int) (owner : Owner) (s : State),
    (¬ (lines.filterMap SourceLine.label).Nodup →
      assembleLines lines address owner s = .failed .redefinitionError s) ∧
    ((lines.filterMap SourceLine.label).Nodup →
      ∃ table, bindLabels lines 0 [] = some table ∧
        ∀ (k : Nat) (l : SourceLine) (name : Text), lines[k]? = some l → l.label = some name →
          table.find name = some ((lines.take k).countP SourceLine.emits))

/-- Where an assembly meets a spelling the spec leaves open (`93_implementation_defined.md` I13; the model's choice of
assumption 9): a line that fits a form is never refused for its spelling; a line that fits no form is refused where
its spelling is open, and is a SyntaxError otherwise (`45_host_port_and_assembler.md` rule R164); a text with no name
bound twice is refused where a label prefix is open, before any word is written; and a text is refused for its
spelling in no other case, so that the errors of earlier lines come first (`60_exceptions.md` rule R192). -/
def Obligations.UncoveredTextIsRefused : Prop :=
  (∀ (cfg : Config) (table : LabelTable) (pos : Nat) (body : Text),
    ((parseStatement body).isSome = true → lineWord cfg table pos body ≠ .error (.refused .unstatedLexeme)) ∧
    (parseStatement body = none → openSpelling body = true →
      lineWord cfg table pos body = .error (.refused .unstatedLexeme)) ∧
    (parseStatement body = none → openSpelling body = false →
      lineWord cfg table pos body = .error (.error .syntaxError))) ∧
  (∀ (lines : List SourceLine) (address : Int) (owner : Owner) (s : State) (table : LabelTable),
    bindLabels lines 0 [] = some table →
    ((∃ l ∈ lines, l.openLabel = true) → assembleLines lines address owner s = .refused .unstatedLexeme) ∧
    (assembleLines lines address owner s = .refused .unstatedLexeme →
      (∃ l ∈ lines, l.openLabel = true) ∨
        ∃ (k : Nat) (body : Text), (bodies lines)[k]? = some body ∧ parseStatement body = none ∧
          openSpelling body = true ∧
          ∀ j < k, ∃ earlier w, (bodies lines)[j]? = some earlier ∧ lineWord s.cfg table j earlier = .ok w))

/-- `45_host_port_and_assembler.md` rule R165, rule R166 and rule R170: a call that succeeds returns the number
of emitting lines and the table rebased to `(address + position) mod N`, and the core is the old one with the
emitted words written one after another from the address on, all with the one owner. Word k is that of emitting
line k at position k. -/
def Obligations.AssemblyWritesItsWords : Prop :=
  ∀ (lines : List SourceLine) (address : Int) (owner : Owner) (s t : State) (n : Nat) (labels : LabelTable),
    assembleLines lines address owner s = .done n labels t →
    n = (bodies lines).length ∧
    ∃ (table : LabelTable) (ws : List Int), bindLabels lines 0 [] = some table ∧
      labels = table.map (fun e => (e.1, norm s.size (address + e.2))) ∧
      ws.length = n ∧ t = s.writeAll address owner ws ∧
      ∀ k < n, ∃ body w, (bodies lines)[k]? = some body ∧ ws[k]? = some w ∧
        lineWord s.cfg table k body = .ok w

/-- `45_host_port_and_assembler.md` rule R169: a call that fails in pass 2 fails at the first line with an error,
and the words of the lines before it, and nothing else, are in the core. -/
def Obligations.FailedAssemblyKeepsEarlierWords : Prop :=
  ∀ (lines : List SourceLine) (address : Int) (owner : Owner) (s t : State) (e : HostError)
    (table : LabelTable),
    bindLabels lines 0 [] = some table → assembleLines lines address owner s = .failed e t →
    ∃ ws : List Int, t = s.writeAll address owner ws ∧ ws.length < (bodies lines).length ∧
      (∀ k < ws.length, ∃ body w, (bodies lines)[k]? = some body ∧ ws[k]? = some w ∧
        lineWord s.cfg table k body = .ok w) ∧
      ∃ body, (bodies lines)[ws.length]? = some body ∧
        lineWord s.cfg table ws.length body = .error (.error e)

/-- `45_host_port_and_assembler.md` rule R165 with rule R171, derived: words written one after another into a
core of N cells reach the cells `norm(address + k)`; each cell that any of them reaches holds the last word that
reaches it, with the owner, however many words there are; every other cell is as before; and the size and the counter
have not moved. Where the words are at most N, every one of them is in its cell. -/
def Obligations.WrittenWordsLandInOrder : Prop :=
  ∀ (s : State) (address : Int) (owner : Owner) (ws : List Int), s.Inv → (∀ w ∈ ws, inRange s.cfg.xlen w) →
    let t := s.writeAll address owner ws
    t.instructionCounter = s.instructionCounter ∧ t.size = s.size ∧
    (∀ (k : Nat) (w : Int), ws[k]? = some w →
      (∀ j < ws.length, k < j → norm s.size (address + j) ≠ norm s.size (address + k)) →
      t.read (address + k) = w ∧ t.ownerRead (address + k) = owner) ∧
    (∀ d < s.size, (∀ k < ws.length, norm s.size (address + k) ≠ d) → t.mem.load d = s.mem.load d) ∧
    (ws.length ≤ s.size → ∀ (k : Nat) (w : Int), ws[k]? = some w →
      t.read (address + k) = w ∧ t.ownerRead (address + k) = owner)

/-- `45_host_port_and_assembler.md` rule R172, in any core of 100 cells with the default parameters and for any
owner: the source's worked example. The words are those of the default maps, the spec's decisions D6 and D7. -/
def Obligations.TwoLineExampleAssembles : Prop :=
  ∀ (s : State) (owner : Owner), s.Inv → s.cfg = Config.default → s.size = 100 →
    ∃ t, assemble "a: ADD a a a\nADD a a a".toList 10 owner s = .done 2 [(['a'], 10)] t ∧
      t.read 10 = 0x070000 ∧ t.read 11 = 0x070777 ∧ t.ownerRead 10 = owner ∧ t.ownerRead 11 = owner ∧
      ∀ d < 100, d ≠ 10 → d ≠ 11 → t.mem.load d = s.mem.load d
end

