-- ==== Sys2Proof/Laws/Codec.lean ====
section
/-! SUPPORT. The laws of the codec's parts: one address field, the six slices of a packed pattern, and the two
maps read backwards. -/

namespace Sys2Proof

/-! ## One address field -/

theorem decodeField_wf (f : BitVec 4) : (decodeField f).wf := by
  revert f
  decide

theorem encodeField_decodeField (f : BitVec 4) : encodeField (decodeField f) = f := by
  revert f
  decide

/-- Only eight offsets have an encoding. -/
theorem AddressField.offset_cases {a : AddressField} (h : a.wf) :
    a.offset = -4 ∨ a.offset = -3 ∨ a.offset = -2 ∨ a.offset = -1 ∨ a.offset = 0 ∨ a.offset = 1 ∨
      a.offset = 2 ∨ a.offset = 3 := by
  obtain ⟨lo, hi⟩ := h
  omega

theorem decodeField_encodeField {a : AddressField} (h : a.wf) : decodeField (encodeField a) = a := by
  have cases := AddressField.offset_cases h
  obtain ⟨b, o⟩ := a
  rcases cases with rfl | rfl | rfl | rfl | rfl | rfl | rfl | rfl <;> cases b <;> rfl

/-- The four bits of an address field as a number (`30_encoding.md` rule R65). -/
theorem encodeField_toNat {a : AddressField} (h : a.wf) :
    ((encodeField a).toNat : Int) = (if a.indirect then 8 else 0) + a.offset % 8 := by
  have cases := AddressField.offset_cases h
  obtain ⟨b, o⟩ := a
  rcases cases with rfl | rfl | rfl | rfl | rfl | rfl | rfl | rfl <;> cases b <;> rfl

/-- The flag and offset of four bits as arithmetic (`30_encoding.md` rule R63). -/
theorem decodeField_arith (f : BitVec 4) :
    ((decodeField f).indirect = true ↔ f.toNat / 8 % 2 = 1) ∧
      (decodeField f).offset = if (f.toNat : Int) % 8 ≥ 4 then (f.toNat : Int) % 8 - 8 else (f.toNat : Int) % 8 := by
  revert f
  decide

/-! ## The slices of a packed pattern -/

theorem shift_or_eq_add {a b n : Nat} (h : b < 2 ^ n) : a <<< n ||| b = a * 2 ^ n + b := by
  rw [← Nat.shiftLeft_add_eq_or_of_lt h, Nat.shiftLeft_eq]

/-- A packed pattern as a sum of its parts. -/
theorem packBits_toNat (f : Fields) :
    (packBits f).toNat =
      f.op.toNat * 2 ^ 18 + f.cc.toNat * 2 ^ 16 + (encodeField f.ca).toNat * 2 ^ 12 +
        (encodeField f.t).toNat * 2 ^ 8 + (encodeField f.s1).toNat * 2 ^ 4 + (encodeField f.s2).toNat := by
  unfold packBits
  simp only [BitVec.toNat_append]
  rw [shift_or_eq_add (by omega), shift_or_eq_add (by omega), shift_or_eq_add (by omega),
    shift_or_eq_add (by omega), shift_or_eq_add (by omega)]
  omega

/-- A slice of a packed pattern, as arithmetic on the sum of its parts. -/
theorem packBits_slice (f : Fields) (lo n : Nat) :
    ((packBits f).extractLsb' lo n).toNat =
      (f.op.toNat * 2 ^ 18 + f.cc.toNat * 2 ^ 16 + (encodeField f.ca).toNat * 2 ^ 12 +
        (encodeField f.t).toNat * 2 ^ 8 + (encodeField f.s1).toNat * 2 ^ 4 + (encodeField f.s2).toNat) /
          2 ^ lo % 2 ^ n := by
  rw [BitVec.extractLsb'_toNat, packBits_toNat, Nat.shiftRight_eq_div_pow]

theorem packBits_op (f : Fields) : (packBits f).extractLsb' 18 6 = f.op := by
  apply BitVec.eq_of_toNat_eq
  rw [packBits_slice]
  omega

theorem packBits_cc (f : Fields) : (packBits f).extractLsb' 16 2 = f.cc := by
  apply BitVec.eq_of_toNat_eq
  rw [packBits_slice]
  omega

theorem packBits_ca (f : Fields) : (packBits f).extractLsb' 12 4 = encodeField f.ca := by
  apply BitVec.eq_of_toNat_eq
  rw [packBits_slice]
  omega

theorem packBits_t (f : Fields) : (packBits f).extractLsb' 8 4 = encodeField f.t := by
  apply BitVec.eq_of_toNat_eq
  rw [packBits_slice]
  omega

theorem packBits_s1 (f : Fields) : (packBits f).extractLsb' 4 4 = encodeField f.s1 := by
  apply BitVec.eq_of_toNat_eq
  rw [packBits_slice]
  omega

theorem packBits_s2 (f : Fields) : (packBits f).extractLsb' 0 4 = encodeField f.s2 := by
  apply BitVec.eq_of_toNat_eq
  rw [packBits_slice]
  omega

/-- The bits of a Word that a pattern was zero-extended to are the pattern. -/
theorem instructionBits_natCast (u : BitVec 24) : instructionBits (u.toNat : Int) = u := by
  unfold instructionBits
  rw [BitVec.ofInt_natCast, BitVec.ofNat_toNat, BitVec.setWidth_eq]

/-- The 24 bits a decoder reads of a Word are the Word modulo 2^24. -/
theorem instructionBits_toNat (w : Int) : ((instructionBits w).toNat : Int) = w % 2 ^ 24 := by
  unfold instructionBits
  rw [BitVec.toNat_ofInt, Int.toNat_of_nonneg (by omega)]
  rfl

theorem decode_eq (cfg : Config) (w : Int) : decode cfg w = Instr.ofFields cfg (unpack w) := rfl

/-! ## The maps read backwards -/

/-- A recognised opcode is the number of its operation (`40_decode_condition.md` rule R91). -/
theorem Config.opnum_of_operationOf {cfg : Config} {op : BitVec 6} {o : Operation}
    (h : cfg.operationOf op = some o) : cfg.opnum o = op := by
  unfold Config.operationOf at h
  split_ifs at h with h1 h2 h3 h4 h5 h6
  · cases h; exact h1.symm
  · cases h; exact h2.symm
  · cases h; exact h3.symm
  · cases h; exact h4.symm
  · cases h; exact h5.symm
  · cases h; exact h6.symm

theorem Config.operationOf_eq_none {cfg : Config} {op : BitVec 6} :
    cfg.operationOf op = none ↔ op ∉ cfg.assigned := by
  unfold Config.operationOf Config.assigned
  split_ifs <;> simp_all

/-- The number of an operation is recognised as that operation, where OPNUM is injective. -/
theorem Config.operationOf_opnum {cfg : Config} (h : cfg.assigned.Nodup) (o : Operation) :
    cfg.operationOf (cfg.opnum o) = some o := by
  simp only [Config.assigned, List.nodup_cons, List.mem_cons, List.not_mem_nil, not_or, or_false] at h
  cases o <;> simp_all [Config.operationOf, Config.opnum, eq_comm]

/-- The number of a condition is read as that condition, where CCNUM is injective. -/
theorem Config.condOf_ccnum {cfg : Config} (h : cfg.codes.Nodup) (c : Cond) : cfg.condOf (cfg.ccnum c) = c := by
  simp only [Config.codes, List.nodup_cons, List.mem_cons, List.not_mem_nil, not_or, or_false] at h
  cases c <;> simp_all [Config.condOf, Config.ccnum, eq_comm]

end Sys2Proof
end

