-- ==== Sys2Proof/Laws/State.lean ====
section
/-! SUPPORT. One lemma per field per update of the state: what an update leaves and what it writes. -/

namespace Sys2Proof.Machine

@[simp] theorem State.memWrite_cfg (s : State) (z : Int) (v : Int) :
    (s.memWrite z v).cfg = s.cfg := rfl

@[simp] theorem State.memWrite_size (s : State) (z : Int) (v : Int) :
    (s.memWrite z v).size = s.size := rfl

@[simp] theorem State.memWrite_mem (s : State) (z : Int) (v : Int) :
    (s.memWrite z v).mem = s.mem := rfl

@[simp] theorem State.memWrite_instructionCounter (s : State) (z : Int) (v : Int) :
    (s.memWrite z v).instructionCounter = s.instructionCounter := rfl

@[simp] theorem State.memWrite_site (s : State) (z : Int) (v : Int) :
    (s.memWrite z v).site = s.site := rfl

@[simp] theorem State.memWrite_requests (s : State) (z : Int) (v : Int) :
    (s.memWrite z v).requests = s.requests ++ [⟨norm s.size z, v, s.ownerRead s.site⟩] := rfl

@[simp] theorem State.storeCell_cfg (s : State) (z : Int) (c : Cell) :
    (s.storeCell z c).cfg = s.cfg := rfl

@[simp] theorem State.storeCell_size (s : State) (z : Int) (c : Cell) :
    (s.storeCell z c).size = s.size := rfl

@[simp] theorem State.storeCell_mem (s : State) (z : Int) (c : Cell) :
    (s.storeCell z c).mem = s.mem.store (norm s.size z) c := rfl

@[simp] theorem State.storeCell_instructionCounter (s : State) (z : Int) (c : Cell) :
    (s.storeCell z c).instructionCounter = s.instructionCounter := rfl

@[simp] theorem State.storeCell_site (s : State) (z : Int) (c : Cell) :
    (s.storeCell z c).site = s.site := rfl

@[simp] theorem State.storeCell_requests (s : State) (z : Int) (c : Cell) :
    (s.storeCell z c).requests = s.requests := rfl

@[simp] theorem State.write_cfg (s : State) (i : Int) (w : Int) (o : Owner) :
    (s.write i w o).cfg = s.cfg := rfl

@[simp] theorem State.write_size (s : State) (i : Int) (w : Int) (o : Owner) :
    (s.write i w o).size = s.size := rfl

@[simp] theorem State.write_mem (s : State) (i : Int) (w : Int) (o : Owner) :
    (s.write i w o).mem = s.mem.store (norm s.size i) ⟨wrap s.cfg.xlen w, o⟩ := rfl

@[simp] theorem State.write_instructionCounter (s : State) (i : Int) (w : Int) (o : Owner) :
    (s.write i w o).instructionCounter = s.instructionCounter := rfl

@[simp] theorem State.write_site (s : State) (i : Int) (w : Int) (o : Owner) :
    (s.write i w o).site = s.site := rfl

@[simp] theorem State.write_requests (s : State) (i : Int) (w : Int) (o : Owner) :
    (s.write i w o).requests = s.requests := rfl

@[simp] theorem State.start_cfg (s : State) :
    (s.start).cfg = s.cfg := rfl

@[simp] theorem State.start_size (s : State) :
    (s.start).size = s.size := rfl

@[simp] theorem State.start_mem (s : State) :
    (s.start).mem = s.mem := rfl

@[simp] theorem State.start_instructionCounter (s : State) :
    (s.start).instructionCounter = s.instructionCounter := rfl

@[simp] theorem State.start_site (s : State) :
    (s.start).site = 0 := rfl

@[simp] theorem State.start_requests (s : State) :
    (s.start).requests = [] := rfl

@[simp] theorem State.advance_cfg (s : State) :
    (s.advance).cfg = s.cfg := rfl

@[simp] theorem State.advance_size (s : State) :
    (s.advance).size = s.size := rfl

@[simp] theorem State.advance_mem (s : State) :
    (s.advance).mem = s.mem := rfl

@[simp] theorem State.advance_instructionCounter (s : State) :
    (s.advance).instructionCounter = s.instructionCounter := rfl

@[simp] theorem State.advance_site (s : State) :
    (s.advance).site = s.site + 1 := rfl

@[simp] theorem State.advance_requests (s : State) :
    (s.advance).requests = s.requests := rfl

@[simp] theorem State.commit_cfg (s : State) :
    (s.commit).cfg = s.cfg := rfl

@[simp] theorem State.commit_size (s : State) :
    (s.commit).size = s.size := rfl

@[simp] theorem State.commit_mem (s : State) :
    (s.commit).mem = commitMem s.requests s.mem := rfl

@[simp] theorem State.commit_instructionCounter (s : State) :
    (s.commit).instructionCounter = s.instructionCounter + 1 := rfl

@[simp] theorem State.commit_site (s : State) :
    (s.commit).site = 0 := rfl

@[simp] theorem State.commit_requests (s : State) :
    (s.commit).requests = [] := rfl

@[simp] theorem State.atSite_cfg (s : State) (i : Nat) :
    (s.atSite i).cfg = s.cfg := rfl

@[simp] theorem State.atSite_size (s : State) (i : Nat) :
    (s.atSite i).size = s.size := rfl

@[simp] theorem State.atSite_mem (s : State) (i : Nat) :
    (s.atSite i).mem = s.mem := rfl

@[simp] theorem State.atSite_instructionCounter (s : State) (i : Nat) :
    (s.atSite i).instructionCounter = s.instructionCounter := rfl

@[simp] theorem State.atSite_site (s : State) (i : Nat) :
    (s.atSite i).site = i := rfl

@[simp] theorem State.atSite_requests (s : State) (i : Nat) :
    (s.atSite i).requests = [] := rfl

end Sys2Proof.Machine
end

