-- ==== Sys2Proof/Laws/Memory.lean ====
section
/-! SUPPORT. The laws of the cell memory: reading after writing, and that writing keeps the canonical form. -/

namespace Sys2Proof.Machine

/-! ## Reading after writing -/

@[simp] theorem Memory.load_nil (a : Nat) : Memory.load [] a = Cell.blank := rfl

theorem Memory.load_cons (b : Nat) (c : Cell) (m : Memory) (a : Nat) :
    Memory.load ((b, c) :: m) a = if a = b then c else Memory.load m a := rfl

/-- The tail of a canonical memory lists only later addresses. -/
theorem Memory.tail_later {b : Nat} {c : Cell} {m : Memory} (h : Memory.wf ((b, c) :: m)) :
    ∀ p ∈ m, b < p.1 := (List.pairwise_cons.mp h.1).1

theorem Memory.wf_tail {p : Nat × Cell} {m : Memory} (h : Memory.wf (p :: m)) : Memory.wf m :=
  ⟨(List.pairwise_cons.mp h.1).2, fun q hq => h.2 q (List.mem_cons_of_mem _ hq)⟩

/-- An address below every listed one is not listed. -/
theorem Memory.load_of_lt {m : Memory} {a : Nat} (h : ∀ p ∈ m, a < p.1) : m.load a = Cell.blank := by
  induction m with
  | nil => rfl
  | cons p m ih =>
    obtain ⟨b, c⟩ := p
    have hb : a < b := h (b, c) (by simp)
    rw [Memory.load_cons, if_neg (by omega)]
    exact ih fun q hq => h q (List.mem_cons_of_mem _ hq)

theorem Memory.load_entry {m : Memory} {a : Nat} (c : Cell) (h : m.load a = Cell.blank) (b : Nat) :
    (Memory.entry a c m).load b = if b = a then c else m.load b := by
  unfold Memory.entry
  split_ifs with hc hb hb
  · subst hb; rw [h, hc]
  · rfl
  · simp [Memory.load_cons, hb]
  · simp [Memory.load_cons, hb]

theorem Memory.store_cons (b : Nat) (x : Cell) (m : Memory) (a : Nat) (c : Cell) :
    Memory.store ((b, x) :: m) a c =
      if a < b then Memory.entry a c ((b, x) :: m)
      else if a = b then Memory.entry a c m
      else (b, x) :: Memory.store m a c := rfl

/-- What a canonical memory reads after a write: the cell written at its address, the old cell elsewhere. -/
theorem Memory.load_store {m : Memory} (h : Memory.wf m) (a : Nat) (c : Cell) (b : Nat) :
    (m.store a c).load b = if b = a then c else m.load b := by
  induction m with
  | nil => exact Memory.load_entry (m := []) c rfl b
  | cons p m ih =>
    obtain ⟨d, x⟩ := p
    have later := Memory.tail_later h
    rw [Memory.store_cons]
    by_cases had : a < d
    · rw [if_pos had]
      refine Memory.load_entry c (Memory.load_of_lt fun q hq => ?_) b
      rcases List.mem_cons.mp hq with rfl | hq
      · exact had
      · exact lt_trans had (later q hq)
    · rw [if_neg had]
      by_cases heq : a = d
      · subst heq
        rw [if_pos rfl, Memory.load_entry c (Memory.load_of_lt later), Memory.load_cons]
        split_ifs <;> rfl
      · rw [if_neg heq, Memory.load_cons, ih (Memory.wf_tail h), Memory.load_cons]
        split_ifs with h1 h2 <;> first | rfl | omega

@[simp] theorem Memory.load_store_same {m : Memory} (h : Memory.wf m) (a : Nat) (c : Cell) :
    (m.store a c).load a = c := by simp [Memory.load_store h]

theorem Memory.load_store_other {m : Memory} (h : Memory.wf m) {a b : Nat} (c : Cell) (hb : b ≠ a) :
    (m.store a c).load b = m.load b := by simp [Memory.load_store h, hb]

/-! ## The entries of a written memory -/

theorem Memory.mem_entry {a : Nat} {c : Cell} {m : Memory} {p : Nat × Cell} (h : p ∈ Memory.entry a c m) :
    p = (a, c) ∨ p ∈ m := by
  unfold Memory.entry at h
  split at h
  · exact .inr h
  · exact List.mem_cons.mp h

/-- Every entry of a written memory is the cell written or an old entry. -/
theorem Memory.mem_store {m : Memory} {a : Nat} {c : Cell} {p : Nat × Cell} (h : p ∈ m.store a c) :
    p = (a, c) ∨ p ∈ m := by
  induction m with
  | nil => exact Memory.mem_entry h
  | cons q m ih =>
    obtain ⟨b, x⟩ := q
    unfold Memory.store at h
    split_ifs at h
    · exact Memory.mem_entry h
    · exact (Memory.mem_entry h).imp id (List.mem_cons_of_mem _)
    · rcases List.mem_cons.mp h with rfl | h
      · exact .inr (by simp)
      · exact (ih h).imp id (List.mem_cons_of_mem _)

/-! ## The canonical form -/

theorem Memory.wf_nil : Memory.wf [] := ⟨List.Pairwise.nil, by simp⟩

theorem Memory.entry_wf {a : Nat} {c : Cell} {m : Memory} (h : Memory.wf m) (later : ∀ p ∈ m, a < p.1) :
    Memory.wf (Memory.entry a c m) := by
  unfold Memory.entry
  split_ifs with hc
  · exact h
  · refine ⟨List.pairwise_cons.mpr ⟨later, h.1⟩, ?_⟩
    intro p hp
    rcases List.mem_cons.mp hp with rfl | hp
    · exact hc
    · exact h.2 p hp

/-- Writing a cell keeps the canonical form. -/
theorem Memory.store_wf {m : Memory} (h : Memory.wf m) (a : Nat) (c : Cell) : Memory.wf (m.store a c) := by
  induction m with
  | nil => exact Memory.entry_wf h (by simp)
  | cons p m ih =>
    obtain ⟨b, x⟩ := p
    have later := Memory.tail_later h
    unfold Memory.store
    split_ifs with hab heq
    · refine Memory.entry_wf h ?_
      intro q hq
      rcases List.mem_cons.mp hq with rfl | hq
      · exact hab
      · exact lt_trans hab (later q hq)
    · subst heq
      exact Memory.entry_wf (Memory.wf_tail h) later
    · refine ⟨List.pairwise_cons.mpr ⟨?_, (ih (Memory.wf_tail h)).1⟩, ?_⟩
      · intro q hq
        rcases Memory.mem_store hq with rfl | hq
        · show b < a
          omega
        · exact later q hq
      · intro q hq
        rcases List.mem_cons.mp hq with rfl | hq
        · exact h.2 _ (by simp)
        · exact (ih (Memory.wf_tail h)).2 q hq

/-- Two canonical memories that read alike everywhere are equal. -/
theorem Memory.ext_of_load {m n : Memory} (hm : Memory.wf m) (hn : Memory.wf n)
    (h : ∀ a, m.load a = n.load a) : m = n := by
  induction m generalizing n with
  | nil =>
    cases n with
    | nil => rfl
    | cons q n =>
      obtain ⟨b, y⟩ := q
      exact absurd (by simpa [Memory.load_cons] using (h b).symm) (hn.2 (b, y) (by simp))
  | cons p m ih =>
    obtain ⟨a, x⟩ := p
    cases n with
    | nil => exact absurd (by simpa [Memory.load_cons] using h a) (hm.2 (a, x) (by simp))
    | cons q n =>
      obtain ⟨b, y⟩ := q
      have hx : x ≠ Cell.blank := hm.2 (a, x) (by simp)
      have hy : y ≠ Cell.blank := hn.2 (b, y) (by simp)
      have la := Memory.tail_later hm
      have lb := Memory.tail_later hn
      have hab : a = b := by
        rcases lt_trichotomy a b with hlt | heq | hgt
        · have := h a
          rw [Memory.load_cons, if_pos rfl, Memory.load_of_lt] at this
          · exact absurd this hx
          · intro r hr
            rcases List.mem_cons.mp hr with rfl | hr
            · exact hlt
            · exact lt_trans hlt (lb r hr)
        · exact heq
        · have := (h b).symm
          rw [Memory.load_cons, if_pos rfl, Memory.load_of_lt] at this
          · exact absurd this hy
          · intro r hr
            rcases List.mem_cons.mp hr with rfl | hr
            · exact hgt
            · exact lt_trans hgt (la r hr)
      subst hab
      have hxy : x = y := by simpa [Memory.load_cons] using h a
      subst hxy
      congr 1
      refine ih (Memory.wf_tail hm) (Memory.wf_tail hn) fun c => ?_
      by_cases hc : c = a
      · subst hc
        rw [Memory.load_of_lt la, Memory.load_of_lt lb]
      · simpa [Memory.load_cons, hc] using h c

/-- Writing back what a canonical memory holds changes nothing. -/
theorem Memory.store_load {m : Memory} (h : Memory.wf m) (a : Nat) : m.store a (m.load a) = m :=
  Memory.ext_of_load (Memory.store_wf h _ _) h fun b => by
    rw [Memory.load_store h]
    split_ifs with hb
    · rw [hb]
    · rfl

end Sys2Proof.Machine
end

