-- ==== Sys2Proof/Laws/Ops.lean ====
section
/-! SUPPORT. The laws of index normalisation, of wrapping, and of the reads of a core. -/

namespace Sys2Proof.Machine

/-! ## norm -/

/-- The doubled form of `norm` is the floor modulus. -/
theorem norm_eq_emod (n : Nat) (z : Int) : norm n z = (z % n).toNat := by
  unfold norm
  rw [Int.add_emod_right, Int.emod_emod_of_dvd _ (dvd_refl _)]

theorem norm_lt {n : Nat} (h : 0 < n) (z : Int) : norm n z < n := by
  rw [norm_eq_emod]
  have := Int.emod_lt_of_pos z (by omega : (0 : Int) < n)
  have := Int.emod_nonneg z (by omega : (n : Int) ≠ 0)
  omega

theorem norm_cast {n : Nat} (h : 0 < n) (z : Int) : (norm n z : Int) = z % n := by
  rw [norm_eq_emod]
  exact Int.toNat_of_nonneg (Int.emod_nonneg z (by omega))

/-- An index in 0..n-1 is its own cell. -/
theorem norm_of_lt {n a : Nat} (h : a < n) : norm n (a : Int) = a := by
  rw [norm_eq_emod, Int.emod_eq_of_lt (by omega) (by omega)]
  rfl

@[simp] theorem norm_norm (n : Nat) (z : Int) : norm n (norm n z : Int) = norm n z := by
  rw [norm_eq_emod, norm_eq_emod]
  rcases Nat.eq_zero_or_pos n with rfl | h
  · simp only [Nat.cast_zero, Int.emod_zero]
    omega
  · rw [Int.toNat_of_nonneg (Int.emod_nonneg z (by omega)), Int.emod_emod_of_dvd _ (dvd_refl _)]

/-- Two integers reach the same cell when they differ by a multiple of the size. -/
theorem norm_congr {n : Nat} {y z : Int} (h : y % n = z % n) : norm n y = norm n z := by
  rw [norm_eq_emod, norm_eq_emod, h]

/-! ## wrap -/

theorem wrap_inRange {x : Nat} (h : 1 ≤ x) (z : Int) : inRange x (wrap x z) := by
  obtain ⟨y, rfl⟩ : ∃ y, x = y + 1 := ⟨x - 1, by omega⟩
  have e : ((2 ^ (y + 1) : Nat) : Int) = 2 * 2 ^ y := by push_cast; ring
  have lo := Int.le_bmod (x := z) (m := 2 ^ (y + 1)) (by positivity)
  have hi := Int.bmod_lt (x := z) (m := 2 ^ (y + 1)) (by positivity)
  rw [e] at lo hi
  unfold inRange wrap
  rw [Nat.add_sub_cancel]
  generalize (2 : Int) ^ y = p at lo hi ⊢
  omega

theorem wrap_of_inRange {x : Nat} (h : 1 ≤ x) {z : Int} (hz : inRange x z) : wrap x z = z := by
  obtain ⟨y, rfl⟩ : ∃ y, x = y + 1 := ⟨x - 1, by omega⟩
  have e : ((2 ^ (y + 1) : Nat) : Int) = 2 * 2 ^ y := by push_cast; ring
  obtain ⟨lo, hi⟩ := hz
  rw [Nat.add_sub_cancel] at lo hi
  unfold wrap
  apply Int.bmod_eq_of_le <;> rw [e] <;> generalize (2 : Int) ^ y = p at lo hi ⊢ <;> omega

/-- Wrapping changes an integer by a multiple of 2^x. -/
theorem wrap_emod (x : Nat) (z : Int) : wrap x z % 2 ^ x = z % 2 ^ x := by
  have := Int.bmod_emod (x := z) (m := 2 ^ x)
  push_cast at this
  exact this

/-- What wrapping takes away is a multiple of 2^x. -/
theorem dvd_sub_wrap (x : Nat) (z : Int) : (2 ^ x : Int) ∣ z - wrap x z :=
  Int.dvd_of_emod_eq_zero (Int.emod_eq_emod_iff_emod_sub_eq_zero.mp (wrap_emod x z).symm)

/-- The bits of an integer below a width are those of its bit-vector. -/
theorem getLsbD_ofInt {x k : Nat} (hk : k < x) (z : Int) : (BitVec.ofInt x z).getLsbD k = z.testBit k := by
  cases z with
  | ofNat n =>
    show (BitVec.ofInt x (n : Int)).getLsbD k = n.testBit k
    rw [BitVec.ofInt_natCast, BitVec.getLsbD_ofNat]
    simp [hk]
  | negSucc n =>
    show _ = !(n.testBit k)
    rw [BitVec.ofInt_negSucc_eq_not_ofNat, BitVec.getLsbD_not, BitVec.getLsbD_ofNat]
    simp [hk]

/-- The bits of a bit-vector's signed value below its width. -/
theorem testBit_toInt {x k : Nat} (hk : k < x) (b : BitVec x) : b.toInt.testBit k = b.getLsbD k := by
  rw [← getLsbD_ofInt hk, BitVec.ofInt_toInt]

/-- A Word of the core's width is the signed value of its bits. -/
theorem toInt_ofInt_of_inRange {x : Nat} (h : 1 ≤ x) {z : Int} (hz : inRange x z) :
    (BitVec.ofInt x z).toInt = z := by
  rw [BitVec.toInt_ofInt]
  exact wrap_of_inRange h hz

/-- A bit-vector's signed value is in the range of its width. -/
theorem toInt_inRange {x : Nat} (b : BitVec x) : inRange x b.toInt :=
  ⟨BitVec.le_toInt b, BitVec.toInt_lt⟩

/-- Every operation's result is a Word of the core's width. -/
theorem aluOf_inRange (o : Operation) {x : Nat} (h : 1 ≤ x) (a b : Int) : inRange x (aluOf o x a b) := by
  cases o
  · exact wrap_inRange h _
  · exact wrap_inRange h _
  · exact toInt_inRange _
  · exact toInt_inRange _
  · exact toInt_inRange _
  · exact toInt_inRange _

/-! ## The cells of a core -/

/-- A listed cell or the blank one: what a read gives. -/
theorem Memory.load_mem_or_blank (m : Memory) (a : Nat) : (a, m.load a) ∈ m ∨ m.load a = Cell.blank := by
  induction m with
  | nil => exact .inr rfl
  | cons p m ih =>
    obtain ⟨b, c⟩ := p
    rw [Memory.load_cons]
    split_ifs with h
    · subst h
      exact .inl (by simp)
    · exact ih.imp (List.mem_cons_of_mem _) id

theorem zero_inRange (x : Nat) : inRange x 0 := ⟨by simp, by positivity⟩

/-- In a core between operations every cell holds a Word of the core's width. -/
theorem State.Inv.word_inRange {s : State} (h : s.Inv) (a : Nat) : inRange s.cfg.xlen (s.mem.load a).word := by
  rcases s.mem.load_mem_or_blank a with hm | hb
  · exact (h.2.2.2.1 _ hm).2
  · rw [hb]
    exact zero_inRange _

/-- A read of an integer address is a read of its cell. -/
theorem State.memRead_eq (s : State) (z : Int) : s.memRead z = (s.mem.load (norm s.size z)).word := rfl

theorem State.ownerRead_eq (s : State) (z : Int) : s.ownerRead z = (s.mem.load (norm s.size z)).owner := rfl

@[simp] theorem State.memRead_norm (s : State) (z : Int) : s.memRead (norm s.size z : Int) = s.memRead z := by
  simp [State.memRead_eq]

/-- Every effective address is a cell of the core. -/
theorem State.ea_lt {s : State} (h : 0 < s.size) (f : AddressField) : s.ea f < s.size := by
  unfold State.ea State.direct
  split
  · exact norm_lt h _
  · exact norm_lt h _

/-- An effective address is its own index. -/
@[simp] theorem State.norm_ea (s : State) (f : AddressField) : norm s.size (s.ea f : Int) = s.ea f := by
  unfold State.ea State.direct
  split <;> exact norm_norm _ _

/-- Direct offset 0 is the executing cell. -/
theorem State.operand_own {s : State} (h : s.site < s.size) :
    s.operand (.direct 0) = (s.mem.load s.site).word := by
  unfold State.operand State.ea State.direct AddressField.direct
  simp only [add_zero, Bool.false_eq_true, if_false]
  rw [State.memRead_norm, State.memRead_eq, norm_of_lt h]

/-- The effective address of a rule, by the memory. -/
theorem State.effectiveAddress_eq (s : State) (f : AddressField) (i : Nat) :
    s.effectiveAddress f i =
      if f.indirect then
        norm s.size (norm s.size (i + f.offset) + (s.mem.load (norm s.size (i + f.offset))).word)
      else norm s.size (i + f.offset) := rfl

theorem State.source_eq (s : State) (f : AddressField) (i : Nat) :
    s.source f i = (s.mem.load (s.effectiveAddress f i)).word := rfl

/-- The executing cell's calculator is the rule's effective address at that cell. -/
theorem State.ea_eq_effectiveAddress (s : State) (f : AddressField) : s.ea f = s.effectiveAddress f s.site := by
  rw [State.effectiveAddress_eq]
  unfold State.ea State.direct
  simp [State.memRead_eq]

theorem State.operand_eq_source (s : State) (h : 0 < s.size) (f : AddressField) :
    s.operand f = s.source f s.site := by
  rw [State.source_eq]
  unfold State.operand
  rw [State.memRead_eq, norm_of_lt (State.ea_lt h f), State.ea_eq_effectiveAddress]

end Sys2Proof.Machine
end

