-- ==== Sys2Proof/Laws/Commit.lean ====
section
/-! SUPPORT. The laws of the commit: what each cell holds after it, and that it keeps the canonical form. -/

namespace Sys2Proof.Machine

/-- Requests written one after another. -/
def writeRequests (reqs : List Request) (m : Memory) : Memory :=
  reqs.foldl (fun m r => m.store r.dest r.cell) m

theorem writeRequests_wf {m : Memory} (h : Memory.wf m) (reqs : List Request) :
    Memory.wf (writeRequests reqs m) := by
  induction reqs generalizing m with
  | nil => exact h
  | cons r rs ih => exact ih (Memory.store_wf h _ _)

/-- Every entry after writing requests is a request's cell or an old entry. -/
theorem mem_writeRequests {reqs : List Request} {m : Memory} {p : Nat × Cell} (h : p ∈ writeRequests reqs m) :
    (∃ r ∈ reqs, p = (r.dest, r.cell)) ∨ p ∈ m := by
  induction reqs generalizing m with
  | nil => exact .inr h
  | cons r rs ih =>
    rcases ih h with ⟨q, hq, rfl⟩ | hm
    · exact .inl ⟨q, List.mem_cons_of_mem _ hq, rfl⟩
    · rcases Memory.mem_store hm with rfl | hm
      · exact .inl ⟨r, by simp, rfl⟩
      · exact .inr hm

/-- A cell no request names keeps its content. -/
theorem load_writeRequests_other {reqs : List Request} {m : Memory} (h : Memory.wf m) {d : Nat}
    (hd : ∀ r ∈ reqs, r.dest ≠ d) : (writeRequests reqs m).load d = m.load d := by
  induction reqs generalizing m with
  | nil => rfl
  | cons r rs ih =>
    refine (ih (Memory.store_wf h _ _) fun q hq => hd q (List.mem_cons_of_mem _ hq)).trans ?_
    exact Memory.load_store_other h _ (hd r (by simp)).symm

/-- A cell that all its requests fill alike holds that content. -/
theorem load_writeRequests_same {reqs : List Request} {m : Memory} (h : Memory.wf m) {r : Request}
    (hr : r ∈ reqs) (all : ∀ q ∈ reqs, q.dest = r.dest → q.cell = r.cell) :
    (writeRequests reqs m).load r.dest = r.cell := by
  induction reqs generalizing m r with
  | nil => simp at hr
  | cons p ps ih =>
    have hps : ∀ q ∈ ps, q.dest = r.dest → q.cell = r.cell :=
      fun q hq => all q (List.mem_cons_of_mem _ hq)
    by_cases mem : ∃ q ∈ ps, q.dest = r.dest
    · obtain ⟨q, hq, hd⟩ := mem
      have hc := hps q hq hd
      have := ih (m := m.store p.dest p.cell) (Memory.store_wf h _ _) (r := q) hq
        (fun q' hq' hd' => (hps q' hq' (hd'.trans hd)).trans hc.symm)
      rw [hd, hc] at this
      exact this
    · push Not at mem
      rcases List.mem_cons.mp hr with rfl | hr
      · refine (load_writeRequests_other (Memory.store_wf h _ _) mem).trans ?_
        exact Memory.load_store_same h _ _
      · exact absurd rfl (mem r hr)

theorem commitMem_eq (reqs : List Request) (m : Memory) :
    commitMem reqs m = writeRequests (reqs.filter (fun r => decide (writerCount reqs r.dest = 1))) m := rfl

/-- The commit keeps the canonical form. -/
theorem commitMem_wf {m : Memory} (h : Memory.wf m) (reqs : List Request) : Memory.wf (commitMem reqs m) :=
  writeRequests_wf h _

/-- Every entry after the commit is a request's cell or an old entry. -/
theorem mem_commitMem {reqs : List Request} {m : Memory} {p : Nat × Cell} (h : p ∈ commitMem reqs m) :
    (∃ r ∈ reqs, p = (r.dest, r.cell)) ∨ p ∈ m :=
  (mem_writeRequests h).imp (fun ⟨r, hr, e⟩ => ⟨r, (List.mem_filter.mp hr).1, e⟩) id

/-- A cell whose number of requests is not one keeps its content. -/
theorem load_commitMem_other {reqs : List Request} {m : Memory} (h : Memory.wf m) {d : Nat}
    (hd : writerCount reqs d ≠ 1) : (commitMem reqs m).load d = m.load d := by
  refine load_writeRequests_other h fun r hr e => ?_
  subst e
  exact hd (by simpa using (List.mem_filter.mp hr).2)

/-- Where one request names a cell there is only that request. -/
theorem eq_of_writerCount_one {reqs : List Request} {p q : Request} (hp : p ∈ reqs) (hq : q ∈ reqs)
    (hd : q.dest = p.dest) (h : writerCount reqs p.dest = 1) : q = p := by
  unfold writerCount at h
  rw [List.countP_eq_length_filter] at h
  obtain ⟨x, hx⟩ := List.length_eq_one_iff.mp h
  have mem : ∀ r ∈ reqs, r.dest = p.dest → r = x := by
    intro r hr e
    have : r ∈ reqs.filter (fun r => decide (r.dest = p.dest)) := List.mem_filter.mpr ⟨hr, by simp [e]⟩
    rw [hx] at this
    simpa using this
  rw [mem p hp rfl, mem q hq hd]

/-- A cell with one request takes the request's value and owner. -/
theorem load_commitMem_same {reqs : List Request} {m : Memory} (h : Memory.wf m) {r : Request}
    (hr : r ∈ reqs) (one : writerCount reqs r.dest = 1) : (commitMem reqs m).load r.dest = r.cell := by
  refine load_writeRequests_same h (List.mem_filter.mpr ⟨hr, by simpa using one⟩) ?_
  intro q hq hd
  rw [eq_of_writerCount_one hr (List.mem_filter.mp hq).1 hd one]

end Sys2Proof.Machine
end

