-- ==== Sys2Proof/Laws/Exec.lean ====
section
/-! SUPPORT. What executing one instruction can do: nothing, or one write request. -/

namespace Sys2Proof.Machine

/-- A state with one more request. -/
def State.addRequest (s : State) (r : Request) : State := { s with requests := s.requests ++ [r] }

/-- The request an operation makes, where its condition holds (`42_alu.md` rule R110). -/
def State.requestFor (s : State) (o : Operation) (t s1 s2 : AddressField) : Request :=
  ⟨norm s.size (s.ea t), aluOf o s.cfg.xlen (s.operand s1) (s.operand s2), s.ownerRead s.site⟩

theorem State.requestFor_eq (s : State) (o : Operation) (t s1 s2 : AddressField) :
    s.requestFor o t s1 s2 =
      ⟨s.ea t, aluOf o s.cfg.xlen (s.memRead (s.ea s1)) (s.memRead (s.ea s2)), s.ownerRead s.site⟩ := by
  unfold State.requestFor State.operand
  rw [State.norm_ea]

/-- The six operations in one equation. -/
theorem exec_operation (o : Operation) (c : Cond) (ca t s1 s2 : AddressField) (s : State) :
    exec (o.instr c ca t s1 s2) s =
      .next (if s.holds c ca then s.addRequest (s.requestFor o t s1 s2) else s) := by
  cases o <;> rfl

/-- Every inert instruction leaves the state as it is. -/
theorem exec_inertOf (op : BitVec 6) (c : Cond) (ca t s1 s2 : AddressField) (s : State) :
    exec (inertOf op c ca t s1 s2) s = .next s := by
  unfold inertOf
  split_ifs <;> rfl

/-- What an instruction answers: the state itself, or the state with the one request of an operation whose
condition holds. -/
theorem exec_cases (i : Instr) (s : State) :
    exec i s = .next s ∨
      ∃ o c ca t s1 s2, i = o.instr c ca t s1 s2 ∧ s.holds c ca = true ∧
        exec i s = .next (s.addRequest (s.requestFor o t s1 s2)) := by
  have op : ∀ (o : Operation) (c : Cond) (ca t s1 s2 : AddressField),
      exec (o.instr c ca t s1 s2) s = .next s ∨
        ∃ o' c' ca' t' s1' s2', o.instr c ca t s1 s2 = Operation.instr o' c' ca' t' s1' s2' ∧
          s.holds c' ca' = true ∧
          exec (o.instr c ca t s1 s2) s = .next (s.addRequest (s.requestFor o' t' s1' s2')) := by
    intro o c ca t s1 s2
    rw [exec_operation]
    by_cases h : s.holds c ca = true
    · exact .inr ⟨o, c, ca, t, s1, s2, rfl, h, by rw [if_pos h]⟩
    · exact .inl (by rw [if_neg h])
  cases i with
  | add c ca t s1 s2 => exact op .add c ca t s1 s2
  | sub c ca t s1 s2 => exact op .sub c ca t s1 s2
  | and c ca t s1 s2 => exact op .and c ca t s1 s2
  | bic c ca t s1 s2 => exact op .bic c ca t s1 s2
  | or c ca t s1 s2 => exact op .or c ca t s1 s2
  | xor c ca t s1 s2 => exact op .xor c ca t s1 s2
  | inertOp0 c ca t s1 s2 => exact .inl rfl
  | inertOp7 op c ca t s1 s2 => exact .inl rfl
  | inertOp8To15 op c ca t s1 s2 => exact .inl rfl
  | inertOp16To31 op c ca t s1 s2 => exact .inl rfl
  | inertOp32To63 op c ca t s1 s2 => exact .inl rfl

/-- The fields read the same whatever requests have been made. -/
theorem State.requestFor_atSite (s : State) (o : Operation) (t s1 s2 : AddressField) :
    (s.atSite s.site).requestFor o t s1 s2 = s.requestFor o t s1 s2 := rfl

theorem State.holds_atSite (s : State) (c : Cond) (ca : AddressField) :
    (s.atSite s.site).holds c ca = s.holds c ca := rfl

/-- An instruction adds to the requests what it makes when its cell is evaluated alone, and changes nothing
else. -/
theorem exec_eq (i : Instr) (s : State) :
    exec i s = .next { s with requests := s.requests ++ requestsIn (exec i (s.atSite s.site)) } := by
  rcases exec_cases i s with h | ⟨o, c, ca, t, s1, s2, rfl, hc, h⟩
  · rcases exec_cases i (s.atSite s.site) with h' | ⟨o, c, ca, t, s1, s2, rfl, hc, -⟩
    · rw [h, h']
      simp [requestsIn]
    · rw [exec_operation, if_pos (by rwa [← State.holds_atSite])] at h
      exact absurd (congrArg (List.length ∘ requestsIn) h) (by simp [requestsIn, State.addRequest])
  · rw [h, exec_operation, State.holds_atSite, if_pos hc]
    simp [requestsIn, State.addRequest, State.requestFor_atSite]

/-- An operation whose condition holds makes its request (`42_alu.md` rule R110). -/
theorem exec_operation_of_holds {s : State} {c : Cond} {ca : AddressField} (h : s.holds c ca = true)
    (o : Operation) (t s1 s2 : AddressField) :
    exec (o.instr c ca t s1 s2) s = .next (s.addRequest (s.requestFor o t s1 s2)) := by
  rw [exec_operation, if_pos h]

end Sys2Proof.Machine
end

