-- ==== Sys2Proof/Laws/Port.lean ====
section
/-! SUPPORT. The laws of the host's writes and of the assembler's pass 2: they keep the invariant, and an assembly
writes the words of its lines one after another up to its end or its first stop. -/

namespace Sys2Proof.Machine

/-- A cell stored into a core between operations keeps its invariant, where the cell holds a Word. -/
theorem State.storeCell_inv {s : State} (h : s.Inv) (z : Int) {c : Cell} (hc : inRange s.cfg.xlen c.word) :
    (s.storeCell z c).Inv := by
  obtain ⟨hw, hp, hm, hr, h0, hq⟩ := h
  refine ⟨hw, hp, Memory.store_wf hm _ _, ?_, h0, hq⟩
  intro p hmem
  rcases Memory.mem_store hmem with rfl | hmem
  · exact ⟨norm_lt hp z, hc⟩
  · exact hr p hmem

/-- A host write keeps the invariant, whatever integer it is given. -/
theorem State.write_inv {s : State} (h : s.Inv) (i w : Int) (o : Owner) : (s.write i w o).Inv := by
  have hx := h.1.1
  exact State.storeCell_inv h i (wrap_inRange (by omega) w)

/-- What a cell holds after a host write. -/
theorem State.load_write {s : State} (h : s.Inv) (i w : Int) (o : Owner) (d : Nat) :
    (s.write i w o).mem.load d = if d = norm s.size i then ⟨wrap s.cfg.xlen w, o⟩ else s.mem.load d :=
  Memory.load_store h.2.2.1 _ _ _

@[simp] theorem State.writeAll_nil (s : State) (a : Int) (o : Owner) : s.writeAll a o [] = s := rfl

theorem State.writeAll_cons (s : State) (a : Int) (o : Owner) (w : Int) (ws : List Int) :
    s.writeAll a o (w :: ws) = (s.write a w o).writeAll (a + 1) o ws := rfl

theorem State.writeAll_inv {s : State} (h : s.Inv) (a : Int) (o : Owner) (ws : List Int) :
    (s.writeAll a o ws).Inv := by
  induction ws generalizing s a with
  | nil => exact h
  | cons w ws ih => exact ih (State.write_inv h a w o) (a + 1)

/-- Writing words leaves the parameters, the size and the counter. -/
theorem State.writeAll_frame (s : State) (a : Int) (o : Owner) (ws : List Int) :
    (s.writeAll a o ws).cfg = s.cfg ∧ (s.writeAll a o ws).size = s.size ∧
      (s.writeAll a o ws).instructionCounter = s.instructionCounter := by
  induction ws generalizing s a with
  | nil => exact ⟨rfl, rfl, rfl⟩
  | cons w ws ih => exact ih (s.write a w o) (a + 1)

/-- A randomized construction: a canonical memory with the draws, wrapped, in the cells below its size. -/
theorem randomCells_spec (xlen : Nat) (word : Nat → Int) (owner : Nat → Owner) (k : Nat) :
    Memory.wf (randomCells xlen word owner k) ∧
      (∀ d, (randomCells xlen word owner k).load d = if d < k then ⟨wrap xlen (word d), owner d⟩ else Cell.blank) ∧
      ∀ p ∈ randomCells xlen word owner k, p.1 < k ∧ ∃ z, p.2.word = wrap xlen z := by
  induction k with
  | zero => exact ⟨Memory.wf_nil, by simp [randomCells], by simp [randomCells]⟩
  | succ k ih =>
    obtain ⟨canonical, loads, listed⟩ := ih
    refine ⟨Memory.store_wf canonical _ _, ?_, ?_⟩
    · intro d
      rw [randomCells, Memory.load_store canonical, loads]
      split_ifs <;> first | rfl | omega | (subst_vars; rfl)
    · intro p hp
      rcases Memory.mem_store hp with rfl | hp
      · exact ⟨by simp, _, rfl⟩
      · exact ⟨by have := (listed p hp).1; omega, (listed p hp).2⟩

/-- Pass 2 in one statement: the words of the emitting lines before its end, or before the first line with an
error or a refusal, are written one after another. -/
theorem emitLines_eq (table : LabelTable) (address : Int) (owner : Owner) (lines : List SourceLine) (pos : Nat)
    (s : State) :
    ∃ ws : List Int,
      (∀ k < ws.length, ∃ body w, (bodies lines)[k]? = some body ∧ ws[k]? = some w ∧
        lineWord s.cfg table (pos + k) body = .ok w) ∧
      ((ws.length = (bodies lines).length ∧
          emitLines table address owner lines pos s =
            .done (pos + ws.length) (rebase s.size address table) (s.writeAll (address + pos) owner ws)) ∨
        (∃ body e, (bodies lines)[ws.length]? = some body ∧
          lineWord s.cfg table (pos + ws.length) body = .error (.error e) ∧
          emitLines table address owner lines pos s = .failed e (s.writeAll (address + pos) owner ws)) ∨
        (∃ body r, (bodies lines)[ws.length]? = some body ∧
          lineWord s.cfg table (pos + ws.length) body = .error (.refused r) ∧
          emitLines table address owner lines pos s = .refused r)) := by
  induction lines generalizing pos s with
  | nil => exact ⟨[], by simp, .inl ⟨rfl, rfl⟩⟩
  | cons l ls ih =>
    by_cases hl : l.emits = true
    · have hb : bodies (l :: ls) = l.body :: bodies ls := by simp [bodies, hl]
      cases hw : lineWord s.cfg table pos l.body with
      | ok w =>
        obtain ⟨ws, hk, h⟩ := ih (pos + 1) (s.write (address + pos) w owner)
        have e : emitLines table address owner (l :: ls) pos s =
            emitLines table address owner ls (pos + 1) (s.write (address + pos) w owner) := by
          rw [emitLines, if_pos hl, hw]
        have a : address + ((pos + 1 : Nat) : Int) = address + pos + 1 := by push_cast; ring
        have n : pos + 1 + ws.length = pos + (w :: ws).length := by simp; omega
        refine ⟨w :: ws, ?_, ?_⟩
        · intro k hlt
          rw [hb]
          cases k with
          | zero => exact ⟨l.body, w, rfl, rfl, hw⟩
          | succ k =>
            obtain ⟨body, v, h1, h2, h3⟩ := hk k (by simpa using hlt)
            exact ⟨body, v, h1, h2, by rw [← h3]; congr 1; omega⟩
        · rw [e, hb, State.writeAll_cons, ← a, ← n]
          rcases h with ⟨h1, h2⟩ | ⟨body, x, h1, h2, h3⟩ | ⟨body, x, h1, h2, h3⟩
          · exact .inl ⟨by simp [h1], h2⟩
          · exact .inr (.inl ⟨body, x, h1, h2, h3⟩)
          · exact .inr (.inr ⟨body, x, h1, h2, h3⟩)
      | error stop =>
        refine ⟨[], by simp, ?_⟩
        rw [emitLines, if_pos hl, hw, hb]
        cases stop with
        | error e => exact .inr (.inl ⟨l.body, e, rfl, hw, rfl⟩)
        | refused r => exact .inr (.inr ⟨l.body, r, rfl, hw, rfl⟩)
    · have hb : bodies (l :: ls) = bodies ls := by simp [bodies, hl]
      have e : emitLines table address owner (l :: ls) pos s = emitLines table address owner ls pos s := by
        rw [emitLines, if_neg hl]
      rw [hb, e]
      exact ih pos s

/-! ## Words of a line -/

theorem splitText_ne_nil (p : Char → Bool) (t : Text) : splitText p t ≠ [] := by
  cases t with
  | nil => simp [splitText]
  | cons c cs =>
    unfold splitText
    split <;> (try split) <;> simp

theorem splitText_cons (p : Char → Bool) (c : Char) (cs : Text) (w : Text) (ws : List Text)
    (h : splitText p cs = w :: ws) :
    splitText p (c :: cs) = if p c then [] :: w :: ws else (c :: w) :: ws := by
  unfold splitText
  rw [h]

/-- A word up to a separator is the first piece. -/
theorem splitText_word {p : Char → Bool} {w : Text} (hw : ∀ c ∈ w, p c = false) {c : Char} (hc : p c = true)
    (rest : Text) : splitText p (w ++ c :: rest) = w :: splitText p rest := by
  induction w with
  | nil =>
    obtain ⟨v, vs, h⟩ := List.exists_cons_of_ne_nil (splitText_ne_nil p rest)
    rw [List.nil_append, splitText_cons p c rest v vs h, if_pos hc, h]
  | cons a w ih =>
    rw [List.cons_append, splitText_cons p a _ w _ (ih fun b hb => hw b (by simp [hb])),
      if_neg (by simp [hw a (by simp)])]

/-- A word with no separator is the only piece. -/
theorem splitText_last {p : Char → Bool} {w : Text} (hw : ∀ c ∈ w, p c = false) : splitText p w = [w] := by
  induction w with
  | nil => rfl
  | cons a w ih =>
    rw [splitText_cons p a w w [] (ih fun b hb => hw b (by simp [hb])), if_neg (by simp [hw a (by simp)])]

/-! ## Refusals of an assembly -/

/-- An expression is refused for its division alone. -/
theorem Expr.eval_refused {table : LabelTable} {e : Expr} {r : Refusal}
    (h : e.eval table = .error (.refused r)) : r = .literalDivision := by
  have bin : ∀ (a b : Expr) (f : Int → Int → Except AsmStop Int),
      (a.eval table = .error (.refused r) → r = .literalDivision) →
      (b.eval table = .error (.refused r) → r = .literalDivision) →
      (∀ x y, f x y = .error (.refused r) → r = .literalDivision) →
      (do f (← a.eval table) (← b.eval table)) = .error (.refused r) → r = .literalDivision := by
    intro a b f ha hb hf h
    cases ea : a.eval table with
    | error x =>
      rw [ea] at h
      exact ha (ea.trans h)
    | ok x =>
      cases eb : b.eval table with
      | error y =>
        rw [ea, eb] at h
        exact hb (eb.trans h)
      | ok y =>
        rw [ea, eb] at h
        exact hf x y h
  induction e with
  | number n => cases h
  | label name =>
    unfold Expr.eval at h
    split at h <;> cases h
  | add a b ha hb => exact bin a b (fun x y => .ok (x + y)) ha hb (fun _ _ e => by cases e) h
  | sub a b ha hb => exact bin a b (fun x y => .ok (x - y)) ha hb (fun _ _ e => by cases e) h
  | mul a b ha hb => exact bin a b (fun x y => .ok (x * y)) ha hb (fun _ _ e => by cases e) h
  | div a b ha hb =>
    refine bin a b (fun x y => if y = 0 ∨ x % y ≠ 0 then .error (.refused .literalDivision) else .ok (x / y))
      ha hb (fun x y e => ?_) h
    split at e <;> cases e
    rfl

theorem Operand.resolve_not_refused {table : LabelTable} {pos : Nat} {o : Operand} {r : Refusal} :
    o.resolve table pos ≠ .error (.refused r) := by
  unfold Operand.resolve
  intro h
  split at h
  · cases h
  · split at h <;> cases h

/-- A statement is refused for its literal alone. -/
theorem Statement.word_refused {cfg : Config} {table : LabelTable} {pos : Nat} {st : Statement} {r : Refusal}
    (h : st.word cfg table pos = .error (.refused r)) : r = .literalOutOfRange ∨ r = .literalDivision := by
  cases st with
  | instruction op c ca t s1 s2 =>
    simp only [Statement.word] at h
    cases e1 : ca.resolve table pos with
    | error x => rw [e1] at h; cases h; exact absurd e1 Operand.resolve_not_refused
    | ok a1 =>
      cases e2 : t.resolve table pos with
      | error x => rw [e1, e2] at h; cases h; exact absurd e2 Operand.resolve_not_refused
      | ok a2 =>
        cases e3 : s1.resolve table pos with
        | error x => rw [e1, e2, e3] at h; cases h; exact absurd e3 Operand.resolve_not_refused
        | ok a3 =>
          cases e4 : s2.resolve table pos with
          | error x => rw [e1, e2, e3, e4] at h; cases h; exact absurd e4 Operand.resolve_not_refused
          | ok a4 =>
            rw [e1, e2, e3, e4] at h
            change (if operandsWf a1 a2 a3 a4 then _ else _) = _ at h
            split at h <;> cases h
  | literal e =>
    simp only [Statement.word] at h
    cases e1 : e.eval table with
    | error x =>
      rw [e1] at h
      cases h
      exact .inr (Expr.eval_refused e1)
    | ok v =>
      rw [e1] at h
      change (if _ then _ else _) = _ at h
      split at h <;> cases h
      exact .inl rfl

/-- A line of a form is what its statement gives. -/
theorem lineWord_of_form {cfg : Config} {table : LabelTable} {pos : Nat} {body : Text} {st : Statement}
    (h : parseStatement body = some st) : lineWord cfg table pos body = st.word cfg table pos := by
  unfold lineWord
  rw [h]

/-- A line of no form is refused where its spelling is open, and is a SyntaxError otherwise. -/
theorem lineWord_of_no_form {cfg : Config} {table : LabelTable} {pos : Nat} {body : Text}
    (h : parseStatement body = none) :
    lineWord cfg table pos body =
      if openSpelling body then .error (.refused .unstatedLexeme) else .error (.error .syntaxError) := by
  unfold lineWord
  rw [h]

/-- A line is refused for its spelling only where it has no form and its spelling is open. -/
theorem lineWord_unstated {cfg : Config} {table : LabelTable} {pos : Nat} {body : Text}
    (h : lineWord cfg table pos body = .error (.refused .unstatedLexeme)) :
    parseStatement body = none ∧ openSpelling body = true := by
  cases hp : parseStatement body with
  | some st =>
    rw [lineWord_of_form hp] at h
    rcases Statement.word_refused h with h | h <;> cases h
  | none =>
    rw [lineWord_of_no_form hp] at h
    split at h
    · exact ⟨rfl, ‹_›⟩
    · cases h

/-- A line is refused for one of three reasons. -/
theorem lineWord_refused {cfg : Config} {table : LabelTable} {pos : Nat} {body : Text} {r : Refusal}
    (h : lineWord cfg table pos body = .error (.refused r)) :
    r = .literalOutOfRange ∨ r = .literalDivision ∨ r = .unstatedLexeme := by
  cases hp : parseStatement body with
  | some st =>
    rw [lineWord_of_form hp] at h
    exact (Statement.word_refused h).imp id .inl
  | none =>
    rw [lineWord_of_no_form hp] at h
    split at h <;> cases h
    exact .inr (.inr rfl)

/-- How a call of the assembler can end: done or failed with the words written one after another, or refused for
one of three reasons. -/
theorem assembleLines_cases (lines : List SourceLine) (address : Int) (owner : Owner) (s : State) :
    (∃ n labels ws, assembleLines lines address owner s = .done n labels (s.writeAll address owner ws)) ∨
      (∃ e ws, assembleLines lines address owner s = .failed e (s.writeAll address owner ws)) ∨
      ∃ r, assembleLines lines address owner s = .refused r ∧
        (r = .literalOutOfRange ∨ r = .literalDivision ∨ r = .unstatedLexeme) := by
  unfold assembleLines
  split
  · rename_i table _
    split
    · exact .inr (.inr ⟨_, rfl, .inr (.inr rfl)⟩)
    · obtain ⟨ws, -, h⟩ := emitLines_eq table address owner lines 0 s
      rw [Nat.cast_zero, add_zero] at h
      rcases h with ⟨-, h⟩ | ⟨_, e, -, -, h⟩ | ⟨_, r, -, hr, h⟩
      · exact .inl ⟨_, _, ws, h⟩
      · exact .inr (.inl ⟨e, ws, h⟩)
      · exact .inr (.inr ⟨r, h, lineWord_refused hr⟩)
  · exact .inr (.inl ⟨_, [], rfl⟩)

end Sys2Proof.Machine
end

