-- ==== Sys2Proof/Laws/Literal.lean ====
section
/-! SUPPORT. How the characters of a written literal are read: the tokens they give, and what reading the tokens of
a literal of each binding strength does to the parse. -/

namespace Sys2Proof.Machine

/-! ## Leaves -/

/-- A numeral is a run of digits and has its decimal value. -/
theorem parseDigits_isSome {ds : Text} (h : (parseDigits ds).isSome = true) :
    ds ≠ [] ∧ (∀ c ∈ ds, c.isDigit = true) ∧ parseDigits ds = some (digitsValue ds) := by
  unfold parseDigits at *
  split at h
  · rename_i h'
    exact ⟨h'.1, by simpa using h'.2, by rw [if_pos h']⟩
  · cases h

theorem isNameChar_of_digits {ds : Text} (h : (parseDigits ds).isSome = true) : ∀ c ∈ ds, isNameChar c = true := by
  intro c hc
  simp [isNameChar, Char.isAlphanum, (parseDigits_isSome h).2.1 c hc]

/-- A label name is a run of name characters and a label as a term. -/
theorem parseName_isSome {n : Text} (h : (parseName n).isSome = true) :
    n ≠ [] ∧ (∀ c ∈ n, isNameChar c = true) ∧ parseTerm n = some (.label n) := by
  unfold parseName at h
  split at h
  · rename_i c cs
    split at h
    · rename_i h'
      refine ⟨by simp, by simpa using h'.2, ?_⟩
      unfold parseTerm parseDigits
      rw [if_neg]
      · simp only [parseName]
        rw [if_pos h']
        rfl
      · rintro ⟨-, h2⟩
        simp at h2
        simp [h2.1] at h'
    · cases h
  · cases h

/-! ## Tokens -/

/-- The tokens of a written literal. -/
def Written.tokens : Written → List Token
  | .number ds => [.run ds]
  | .negative ds => [.sym '-', .run ds]
  | .label n => [.run n]
  | .group a => .sym '(' :: a.tokens ++ [.sym ')']
  | .add a b => a.tokens ++ .sym '+' :: b.tokens
  | .sub a b => a.tokens ++ .sym '-' :: b.tokens
  | .mul a b => a.tokens ++ .sym '*' :: b.tokens
  | .div a b => a.tokens ++ .sym '/' :: b.tokens

/-- Tokens before which a run of name characters ends. -/
def EndsRun (ts : List Token) : Prop := ∀ cs rest, ts ≠ .run cs :: rest

theorem endsRun_nil : EndsRun [] := nofun

theorem endsRun_sym (c : Char) (ts : List Token) : EndsRun (.sym c :: ts) := nofun

/-- A run of name characters is one token. -/
theorem lexChar_run {cs : Text} (hne : cs ≠ []) (h : ∀ c ∈ cs, isNameChar c = true) {ts : List Token}
    (hs : EndsRun ts) : cs.foldr lexChar ts = .run cs :: ts := by
  induction cs with
  | nil => exact absurd rfl hne
  | cons c cs ih =>
    have hc : isNameChar c = true := h c (by simp)
    rw [List.foldr_cons]
    cases cs with
    | nil =>
      unfold lexChar
      rw [if_pos hc]
      simp only [List.foldr_nil]
      split
      · exact absurd rfl (hs _ _)
      · rfl
    | cons d ds =>
      rw [ih (by simp) (fun x hx => h x (by simp [hx]))]
      unfold lexChar
      rw [if_pos hc]

/-- A character that is neither a name character nor a blank is a token. -/
theorem lexChar_sym {c : Char} (h1 : isNameChar c = false) (h2 : isSpace c = false) (ts : List Token) :
    lexChar c ts = .sym c :: ts := by
  unfold lexChar
  rw [if_neg (by simp [h1]), if_neg (by simp [h2])]

theorem foldr_binary {a b : Text} {op : Char} (h1 : isNameChar op = false) (h2 : isSpace op = false)
    {ts ta tb : List Token} (ha : ∀ us, EndsRun us → a.foldr lexChar us = ta ++ us)
    (hb : b.foldr lexChar ts = tb ++ ts) : (a ++ op :: b).foldr lexChar ts = (ta ++ .sym op :: tb) ++ ts := by
  rw [List.foldr_append, List.foldr_cons, hb, lexChar_sym h1 h2, ha _ (endsRun_sym _ _)]
  simp

theorem Written.foldr_spell (w : Written) (hw : w.wf) :
    ∀ ts, EndsRun ts → w.spell.foldr lexChar ts = w.tokens ++ ts := by
  induction w with
  | number ds => exact fun ts hs => lexChar_run (parseDigits_isSome hw).1 (isNameChar_of_digits hw) hs
  | negative ds =>
    intro ts hs
    show lexChar '-' (ds.foldr lexChar ts) = _
    rw [lexChar_run (parseDigits_isSome hw).1 (isNameChar_of_digits hw) hs, lexChar_sym (by decide) (by decide)]
    rfl
  | label n => exact fun ts hs => lexChar_run (parseName_isSome hw).1 (parseName_isSome hw).2.1 hs
  | group a ih =>
    intro ts hs
    show lexChar '(' ((a.spell ++ [')']).foldr lexChar ts) = _
    rw [List.foldr_append, List.foldr_cons, List.foldr_nil, lexChar_sym (c := ')') (by decide) (by decide),
      ih hw _ (endsRun_sym _ _), lexChar_sym (by decide) (by decide)]
    simp [Written.tokens]
  | add a b ha hb => exact fun ts hs => foldr_binary (by decide) (by decide) (ha hw.1) (hb hw.2.1 ts hs)
  | sub a b ha hb => exact fun ts hs => foldr_binary (by decide) (by decide) (ha hw.1) (hb hw.2.1 ts hs)
  | mul a b ha hb => exact fun ts hs => foldr_binary (by decide) (by decide) (ha hw.1) (hb hw.2.1 ts hs)
  | div a b ha hb => exact fun ts hs => foldr_binary (by decide) (by decide) (ha hw.1) (hb hw.2.1 ts hs)

theorem Written.gap_not_mem (w : Written) : ∀ k ∈ w.tokens, k ≠ .gap := by
  induction w <;> simp_all [Written.tokens] <;> rintro k (h | rfl | h) <;> simp_all

/-- The characters of a written literal give its tokens. -/
theorem Written.lex_spell {w : Written} (hw : w.wf) : lex w.spell = w.tokens := by
  unfold lex
  rw [w.foldr_spell hw [] endsRun_nil, List.append_nil, List.filter_eq_self]
  intro k hk
  simpa using w.gap_not_mem k hk

/-! ## Reading the tokens -/

theorem Parse.tokens_cons {p q : Parse} {k : Token} (h : p.token k = some q) (ks : List Token) :
    p.tokens (k :: ks) = q.tokens ks := by
  rw [Parse.tokens, h]

/-- The tokens are read as one operand, wherever an operand must come. -/
def Written.ReadsAsOperand (w : Written) : Prop :=
  ∀ p : Parse, p.value = none → p.minus = false → ∀ ks, p.tokens (w.tokens ++ ks) = (p.operand w.expr).tokens ks

/-- The tokens are read as one product, wherever a product may begin. -/
def Written.ReadsAsProduct (w : Written) : Prop :=
  ∀ p : Parse, p.value = none → p.minus = false → p.level.product = none →
    ∀ ks, p.tokens (w.tokens ++ ks) = (Parse.mk ⟨p.level.sum, none⟩ p.outer (some w.expr) false).tokens ks

/-- The tokens are read as one sum, wherever a level of grouping begins. -/
def Written.ReadsAsSum (w : Written) : Prop :=
  ∀ p : Parse, p.value = none → p.minus = false → p.level = ⟨none, none⟩ →
    ∀ ks, ∃ sum e, p.tokens (w.tokens ++ ks) = (Parse.mk ⟨sum, none⟩ p.outer (some e) false).tokens ks ∧
      (Pending.mk sum none).closeSum e = w.expr

theorem Written.ReadsAsOperand.product {w : Written} (h : w.ReadsAsOperand) : w.ReadsAsProduct := by
  intro p h1 h2 h3 ks
  rw [h p h1 h2 ks]
  simp only [Parse.operand, Pending.closeProduct, h3]

theorem Written.ReadsAsProduct.sum {w : Written} (h : w.ReadsAsProduct) : w.ReadsAsSum := by
  intro p h1 h2 h3 ks
  refine ⟨p.level.sum, w.expr, h p h1 h2 (by rw [h3]) ks, ?_⟩
  rw [h3]
  rfl

/-- A literal that binds as tightly as a place asks for is read there as what it stands for. -/
theorem Written.reads (w : Written) (hw : w.wf) :
    (2 ≤ w.binding → w.ReadsAsOperand) ∧ (1 ≤ w.binding → w.ReadsAsProduct) ∧ w.ReadsAsSum := by
  have operand : ∀ {w : Written}, w.ReadsAsOperand →
      (2 ≤ w.binding → w.ReadsAsOperand) ∧ (1 ≤ w.binding → w.ReadsAsProduct) ∧ w.ReadsAsSum :=
    fun h => ⟨fun _ => h, fun _ => h.product, h.product.sum⟩
  have product : ∀ {w : Written}, w.binding = 1 → w.ReadsAsProduct →
      (2 ≤ w.binding → w.ReadsAsOperand) ∧ (1 ≤ w.binding → w.ReadsAsProduct) ∧ w.ReadsAsSum :=
    fun hb h => ⟨fun h2 => by omega, fun _ => h, h.sum⟩
  induction w with
  | number ds =>
    refine operand fun p h1 h2 ks => Parse.tokens_cons ?_ ks
    simp only [Parse.token, h1, Parse.operandToken, h2, parseTerm, (parseDigits_isSome hw).2.2]
    rfl
  | negative ds =>
    refine operand fun p h1 h2 ks => ?_
    have minus : p.token (.sym '-') = some ⟨p.level, p.outer, none, true⟩ := by
      simp only [Parse.token, h1, Parse.operandToken, h2]
    refine (Parse.tokens_cons minus _).trans (Parse.tokens_cons ?_ ks)
    simp only [Parse.token, Parse.operandToken, (parseDigits_isSome hw).2.2]
    rfl
  | label n =>
    refine operand fun p h1 h2 ks => Parse.tokens_cons ?_ ks
    simp only [Parse.token, h1, Parse.operandToken, h2, (parseName_isSome hw).2.2]
    rfl
  | group a ih =>
    refine operand fun p h1 h2 ks => ?_
    have e : (Written.group a).tokens ++ ks = .sym '(' :: (a.tokens ++ (.sym ')' :: ks)) := by
      simp [Written.tokens]
    have opened : p.token (.sym '(') = some ⟨⟨none, none⟩, p.level :: p.outer, none, false⟩ := by
      simp only [Parse.token, h1, Parse.operandToken, h2]
    obtain ⟨sum, x, h3, h4⟩ := (ih hw).2.2 ⟨⟨none, none⟩, p.level :: p.outer, none, false⟩ rfl rfl rfl (.sym ')' :: ks)
    rw [e, Parse.tokens_cons opened, h3]
    refine Parse.tokens_cons ?_ ks
    simp only [Parse.token, Parse.operatorToken, h4]
    rfl
  | mul a b ha hb =>
    refine product rfl fun p h1 h2 h3 ks => ?_
    have e : (Written.mul a b).tokens ++ ks = a.tokens ++ (.sym '*' :: (b.tokens ++ ks)) := by simp [Written.tokens]
    rw [e, (ha hw.1).2.1 hw.2.2.1 p h1 h2 h3]
    refine (Parse.tokens_cons (q := ⟨⟨p.level.sum, some (a.expr, true)⟩, p.outer, none, false⟩) rfl _).trans ?_
    rw [(hb hw.2.1).1 hw.2.2.2 _ rfl rfl]
    rfl
  | div a b ha hb =>
    refine product rfl fun p h1 h2 h3 ks => ?_
    have e : (Written.div a b).tokens ++ ks = a.tokens ++ (.sym '/' :: (b.tokens ++ ks)) := by simp [Written.tokens]
    rw [e, (ha hw.1).2.1 hw.2.2.1 p h1 h2 h3]
    refine (Parse.tokens_cons (q := ⟨⟨p.level.sum, some (a.expr, false)⟩, p.outer, none, false⟩) rfl _).trans ?_
    rw [(hb hw.2.1).1 hw.2.2.2 _ rfl rfl]
    rfl
  | add a b ha hb =>
    refine ⟨nofun, nofun, fun p h1 h2 h3 ks => ?_⟩
    have e : (Written.add a b).tokens ++ ks = a.tokens ++ (.sym '+' :: (b.tokens ++ ks)) := by simp [Written.tokens]
    obtain ⟨sum, x, h4, h5⟩ := (ha hw.1).2.2 p h1 h2 h3 (.sym '+' :: (b.tokens ++ ks))
    refine ⟨some (a.expr, true), b.expr, ?_, rfl⟩
    rw [e, h4]
    refine (Parse.tokens_cons (q := ⟨⟨some (a.expr, true), none⟩, p.outer, none, false⟩) (by rw [← h5]; rfl) _).trans ?_
    rw [(hb hw.2.1).2.1 hw.2.2 _ rfl rfl rfl]
  | sub a b ha hb =>
    refine ⟨nofun, nofun, fun p h1 h2 h3 ks => ?_⟩
    have e : (Written.sub a b).tokens ++ ks = a.tokens ++ (.sym '-' :: (b.tokens ++ ks)) := by simp [Written.tokens]
    obtain ⟨sum, x, h4, h5⟩ := (ha hw.1).2.2 p h1 h2 h3 (.sym '-' :: (b.tokens ++ ks))
    refine ⟨some (a.expr, false), b.expr, ?_, rfl⟩
    rw [e, h4]
    refine (Parse.tokens_cons (q := ⟨⟨some (a.expr, false), none⟩, p.outer, none, false⟩) (by rw [← h5]; rfl) _).trans ?_
    rw [(hb hw.2.1).2.1 hw.2.2 _ rfl rfl rfl]

end Sys2Proof.Machine
end

