-- ==== Sys2Proof/Laws/PerInstr.lean ====
section
/-! SUPPORT. Per instruction: with the default maps, what the encoder writes spells the instruction's own row of
`opcode_table.json` (`30_encoding.md` rule R70). One lemma per constructor. -/

namespace Sys2Proof

/-! ## The masks of the table, as slices of the opcode -/

theorem and_mask_op (u : BitVec 24) : u &&& (0xFC0000 : BitVec 24) = (u.extractLsb' 18 6).setWidth 24 <<< 18 := by
  ext i hi
  interval_cases i <;> simp

theorem and_mask_op_high3 (u : BitVec 24) :
    u &&& (0xE00000 : BitVec 24) = ((u.extractLsb' 18 6).extractLsb' 3 3).setWidth 24 <<< 21 := by
  ext i hi
  interval_cases i <;> simp

theorem and_mask_op_high2 (u : BitVec 24) :
    u &&& (0xC00000 : BitVec 24) = ((u.extractLsb' 18 6).extractLsb' 4 2).setWidth 24 <<< 22 := by
  ext i hi
  interval_cases i <;> simp

theorem and_mask_op_high1 (u : BitVec 24) :
    u &&& (0x800000 : BitVec 24) = ((u.extractLsb' 18 6).extractLsb' 5 1).setWidth 24 <<< 23 := by
  ext i hi
  interval_cases i <;> simp

/-- The opcode of an encoded instruction. -/
theorem encodeBits_op (cfg : Config) (i : Instr) : (encodeBits cfg i).extractLsb' 18 6 = (i.toFields cfg).op :=
  packBits_op _

/-! ## The opcodes of the inert rows -/

theorem inert_op7 (op : BitVec 6) (h : inertOpcodeWf Config.default op 1 7) : op = 7 := by
  revert op
  decide

theorem inert_op8_15 (op : BitVec 6) (h : 8 ≤ op.toNat ∧ op.toNat ≤ 15) : op.extractLsb' 3 3 = 1 := by
  revert op
  decide

theorem inert_op16_31 (op : BitVec 6) (h : 16 ≤ op.toNat ∧ op.toNat ≤ 31) : op.extractLsb' 4 2 = 1 := by
  revert op
  decide

theorem inert_op32_63 (op : BitVec 6) (h : 32 ≤ op.toNat) : op.extractLsb' 5 1 = 1 := by
  revert op
  decide

end Sys2Proof

namespace Sys2Proof.Laws.TableRow

open Sys2Proof Sys2Proof.Machine

/-- A well-formed instruction's word spells the instruction's row. -/
def Statement (i : Instr) : Prop :=
  i.wf Config.default = true → spells (encodeBits Config.default i) (rowOf i) = true

theorem spells_iff (u : BitVec 24) (name : String) (m mask : BitVec 24) :
    spells u (name, m, mask) = true ↔ u &&& mask = m := decide_eq_true_iff

/-- A row of one opcode is spelled by every word with that opcode. -/
theorem spells_of_op {u : BitVec 24} (name : String) {op : BitVec 6} (h : u.extractLsb' 18 6 = op)
    {m : BitVec 24} (hm : op.setWidth 24 <<< 18 = m) : spells u (name, m, 0xFC0000) = true := by
  rw [spells_iff, and_mask_op, h, hm]

theorem add (c : Cond) (ca t s1 s2 : AddressField) : Statement (.add c ca t s1 s2) :=
  fun _ => spells_of_op (op := 1) _ (encodeBits_op _ _) (by decide)

theorem sub (c : Cond) (ca t s1 s2 : AddressField) : Statement (.sub c ca t s1 s2) :=
  fun _ => spells_of_op (op := 2) _ (encodeBits_op _ _) (by decide)

theorem and (c : Cond) (ca t s1 s2 : AddressField) : Statement (.and c ca t s1 s2) :=
  fun _ => spells_of_op (op := 3) _ (encodeBits_op _ _) (by decide)

theorem bic (c : Cond) (ca t s1 s2 : AddressField) : Statement (.bic c ca t s1 s2) :=
  fun _ => spells_of_op (op := 4) _ (encodeBits_op _ _) (by decide)

theorem or (c : Cond) (ca t s1 s2 : AddressField) : Statement (.or c ca t s1 s2) :=
  fun _ => spells_of_op (op := 5) _ (encodeBits_op _ _) (by decide)

theorem xor (c : Cond) (ca t s1 s2 : AddressField) : Statement (.xor c ca t s1 s2) :=
  fun _ => spells_of_op (op := 6) _ (encodeBits_op _ _) (by decide)

theorem inertOp0 (c : Cond) (ca t s1 s2 : AddressField) : Statement (.inertOp0 c ca t s1 s2) :=
  fun _ => spells_of_op (op := 0) _ (encodeBits_op _ _) (by decide)

theorem inertOp7 (op : BitVec 6) (c : Cond) (ca t s1 s2 : AddressField) :
    Statement (.inertOp7 op c ca t s1 s2) := by
  intro h
  have h7 := inert_op7 op (of_decide_eq_true h).1
  subst h7
  exact spells_of_op (op := 7) _ (encodeBits_op _ _) (by decide)

theorem inertOp8To15 (op : BitVec 6) (c : Cond) (ca t s1 s2 : AddressField) :
    Statement (.inertOp8To15 op c ca t s1 s2) := by
  intro h
  have ho := (of_decide_eq_true h).1
  have hx := inert_op8_15 op ⟨ho.1, ho.2.1⟩
  rw [rowOf, spells_iff, and_mask_op_high3, encodeBits_op]
  show (op.extractLsb' 3 3).setWidth 24 <<< 21 = _
  rw [hx]
  decide

theorem inertOp16To31 (op : BitVec 6) (c : Cond) (ca t s1 s2 : AddressField) :
    Statement (.inertOp16To31 op c ca t s1 s2) := by
  intro h
  have ho := (of_decide_eq_true h).1
  have hx := inert_op16_31 op ⟨ho.1, ho.2.1⟩
  rw [rowOf, spells_iff, and_mask_op_high2, encodeBits_op]
  show (op.extractLsb' 4 2).setWidth 24 <<< 22 = _
  rw [hx]
  decide

theorem inertOp32To63 (op : BitVec 6) (c : Cond) (ca t s1 s2 : AddressField) :
    Statement (.inertOp32To63 op c ca t s1 s2) := by
  intro h
  have ho := (of_decide_eq_true h).1
  have hx := inert_op32_63 op ho.1
  rw [rowOf, spells_iff, and_mask_op_high1, encodeBits_op]
  show (op.extractLsb' 5 1).setWidth 24 <<< 23 = _
  rw [hx]
  decide

end Sys2Proof.Laws.TableRow
end

