-- ==== Sys2Proof/Laws/Step.lean ====
section
/-! SUPPORT. What evaluating the cells of a generation does: every cell's instruction runs as if alone, and the
requests are collected in the order of the cells. -/

namespace Sys2Proof.Machine

/-- What cell `i` answers when it is evaluated alone: `exec` of its decoded Word at that cell. -/
def State.alone (s : State) (i : Nat) : Host.Outcome State Fault Refusal :=
  exec (decode s.cfg (s.memRead i)) (s.atSite i)

/-- Evaluating `k` cells collects what each of them asks for when it is evaluated alone. -/
theorem evaluate_eq (k : Nat) (s : State) :
    evaluate k s =
      .next { s with
        site := s.site + k
        requests := s.requests ++ (List.range' s.site k).flatMap (fun i => requestsIn (s.alone i)) } := by
  induction k generalizing s with
  | zero => simp [evaluate]
  | succ k ih =>
    rw [evaluate, exec_eq]
    simp only [State.advance]
    rw [ih]
    simp only [List.range'_succ, List.flatMap_cons, ← List.append_assoc]
    congr 1
    simp only [State.mk.injEq, true_and]
    exact ⟨by omega, rfl⟩

/-- `req(i)` by the decoded fields of cell `i` (`43_commit.md` rule R131). -/
theorem State.requestOf_eq (s : State) (i : Nat) :
    s.requestOf i =
      match s.cfg.operationOf (unpack (s.mem.load i).word).op with
      | none => none
      | some o =>
        if condTest (s.cfg.condOf (unpack (s.mem.load i).word).cc) (s.source (unpack (s.mem.load i).word).ca i) then
          some ⟨s.effectiveAddress (unpack (s.mem.load i).word).t i,
            aluOf o s.cfg.xlen (s.source (unpack (s.mem.load i).word).s1 i)
              (s.source (unpack (s.mem.load i).word).s2 i), (s.mem.load i).owner⟩
        else none := by
  unfold State.requestOf CoreOver.demand
  simp only [State.arrays]
  cases s.cfg.operationOf (unpack (s.mem.load i).word).op with
  | none => rfl
  | some o =>
    simp only
    change Option.map _ (if condTest _ (s.source _ i) then _ else _) = _
    split <;> rfl

/-- The writers of a cell by the requests. -/
theorem State.writersOf_eq (s : State) (d : Nat) :
    s.writersOf d = (List.range s.size).filter (fun i => decide ((s.requestOf i).map Request.dest = some d)) := by
  have e : ∀ i, (s.requestOf i).map Request.dest = (s.arrays.demand i).map Prod.fst := fun i => by
    rw [State.requestOf, Option.map_map]
    rfl
  simp only [e]
  rfl

/-- A cell evaluated alone asks for what the rule says, `req(i)` (`43_commit.md` rule R131). -/
theorem State.requestsIn_alone {s : State} {i : Nat} (h : i < s.size) :
    requestsIn (s.alone i) = (s.requestOf i).toList := by
  have pos : 0 < s.size := by omega
  unfold State.alone
  rw [State.requestOf_eq, decode_eq, State.memRead_eq, norm_of_lt h]
  unfold Instr.ofFields
  cases ho : s.cfg.operationOf (unpack (s.mem.load i).word).op with
  | none =>
    simp only
    rw [exec_inertOf]
    rfl
  | some o =>
    simp only
    rw [exec_operation]
    have e : ∀ f, (s.atSite i).operand f = s.source f i := State.operand_eq_source (s.atSite i) pos
    have g : ∀ f, (s.atSite i).ea f = s.effectiveAddress f i := State.ea_eq_effectiveAddress (s.atSite i)
    have n : ∀ f, norm s.size ((s.atSite i).ea f : Int) = s.effectiveAddress f i := fun f =>
      (State.norm_ea (s.atSite i) f).trans (g f)
    have w : (s.atSite i).ownerRead i = (s.mem.load i).owner := by
      rw [State.ownerRead_eq]
      show (s.mem.load (norm s.size i)).owner = _
      rw [norm_of_lt h]
    simp only [State.holds, e]
    split
    · simp only [requestsIn, State.addRequest, State.requestFor, State.atSite_requests, State.atSite_size,
        State.atSite_cfg, State.atSite_site, n, w, e, List.nil_append, Option.toList_some]
    · rfl

/-- All requests of a generation, in the order of the cells. -/
def State.allRequests (s : State) : List Request :=
  (List.range s.size).flatMap (fun i => (s.requestOf i).toList)

/-- One step of a core with cells, in one equation over the requests of the rules. -/
theorem step_eq {s : State} (h : 0 < s.size) :
    step s = .next { s with
      mem := commitMem s.allRequests s.mem
      instructionCounter := s.instructionCounter + 1
      site := 0
      requests := [] } := by
  have e : (List.range s.size).flatMap (fun i => requestsIn (s.alone i)) = s.allRequests :=
    List.flatMap_congr fun i hi => State.requestsIn_alone (List.mem_range.mp hi)
  unfold step generation
  rw [if_neg (by omega), evaluate_eq]
  simp only [State.start, State.commit, List.nil_append, ← List.range_eq_range', ← e]
  rfl

theorem State.mem_allRequests {s : State} {r : Request} :
    r ∈ s.allRequests ↔ ∃ i < s.size, s.requestOf i = some r := by
  simp [State.allRequests, List.mem_flatMap]

/-- `cnt(d)` is the number of the writers of `d`. -/
theorem State.writerCount_allRequests (s : State) (d : Nat) :
    writerCount s.allRequests d = (s.writersOf d).length := by
  rw [State.writersOf_eq]
  unfold writerCount State.allRequests
  induction List.range s.size with
  | nil => rfl
  | cons i l ih =>
    rw [List.flatMap_cons, List.countP_append, ih, List.filter_cons]
    cases hr : s.requestOf i with
    | none => simp
    | some r =>
      by_cases hd : r.dest = d
      · simp [hd, Nat.add_comm]
      · simp [hd]

theorem State.mem_writersOf {s : State} {d i : Nat} :
    i ∈ s.writersOf d ↔ i < s.size ∧ ∃ r, s.requestOf i = some r ∧ r.dest = d := by
  simp [State.writersOf_eq]

/-- A request is for a cell of the core. -/
theorem State.requestOf_dest_lt {s : State} (h : 0 < s.size) {i : Nat} {r : Request}
    (hr : s.requestOf i = some r) : r.dest < s.size := by
  rw [State.requestOf_eq] at hr
  split at hr
  · cases hr
  · split at hr
    · cases hr
      show s.effectiveAddress _ _ < _
      rw [State.effectiveAddress_eq]
      split <;> exact norm_lt h _
    · cases hr

/-- A request carries a Word of the core's width and its writer's pre-step owner. -/
theorem State.requestOf_value {s : State} (h : 1 ≤ s.cfg.xlen) {i : Nat} {r : Request}
    (hr : s.requestOf i = some r) : inRange s.cfg.xlen r.value ∧ r.owner = (s.mem.load i).owner := by
  rw [State.requestOf_eq] at hr
  split at hr
  · cases hr
  · split at hr
    · cases hr
      exact ⟨aluOf_inRange _ h _ _, rfl⟩
    · cases hr

/-- The writers of a cell are distinct (`43_commit.md` rule R132). -/
theorem State.writersOf_nodup (s : State) (d : Nat) : (s.writersOf d).Nodup := List.nodup_range.filter _

/-- The request of a cell whose Word decodes to an operation whose condition holds. -/
theorem State.requestOf_of_decode {s : State} {i : Nat} (hi : i < s.size) {o : Operation} {c : Cond}
    {ca t s1 s2 : AddressField} (hd : decode s.cfg (s.memRead i) = o.instr c ca t s1 s2)
    (hc : (s.atSite i).holds c ca = true) : s.requestOf i = some ((s.atSite i).requestFor o t s1 s2) := by
  have h := State.requestsIn_alone hi
  unfold State.alone at h
  rw [hd, exec_operation_of_holds hc] at h
  simp only [requestsIn, State.addRequest, State.atSite_requests, List.nil_append] at h
  cases hr : s.requestOf i with
  | none =>
    rw [hr] at h
    cases h
  | some r =>
    rw [hr, Option.toList_some, List.cons.injEq] at h
    rw [h.1]

/-! ## The commit by the writers -/

/-- A cell with one writer holds that writer's request after the commit. -/
theorem State.load_commit_of_lone {s : State} (h : Memory.wf s.mem) {d i : Nat} {r : Request}
    (hw : s.writersOf d = [i]) (hr : s.requestOf i = some r) : (commitMem s.allRequests s.mem).load d = r.cell := by
  obtain ⟨hi, q, hq, rfl⟩ := State.mem_writersOf.mp (hw ▸ List.mem_singleton_self i : i ∈ s.writersOf d)
  cases hr.symm.trans hq
  exact load_commitMem_same h (State.mem_allRequests.mpr ⟨i, hi, hr⟩)
    (by rw [State.writerCount_allRequests, hw]; rfl)

/-- A cell with no writer, or with several, is as before after the commit. -/
theorem State.load_commit_of_not_lone {s : State} (h : Memory.wf s.mem) {d : Nat}
    (hw : (s.writersOf d).length ≠ 1) : (commitMem s.allRequests s.mem).load d = s.mem.load d :=
  load_commitMem_other h (by rwa [State.writerCount_allRequests])

/-! ## The rules over owner types -/

/-- What a cell asks for depends on the parameters and the Words alone. -/
theorem CoreOver.demand_congr {O P : Type} {a : CoreOver O} {b : CoreOver P} (hc : a.cfg = b.cfg)
    (hs : a.size = b.size) (hp : 0 < a.size) (hw : ∀ d < a.size, a.word d = b.word d) {i : Nat} (hi : i < a.size) :
    a.demand i = b.demand i := by
  have inside : ∀ f, a.effectiveAddress f i < a.size := by
    intro f
    unfold CoreOver.effectiveAddress
    simp only
    split <;> exact norm_lt hp _
  have address : ∀ f, a.effectiveAddress f i = b.effectiveAddress f i := by
    intro f
    unfold CoreOver.effectiveAddress
    simp only [← hs, hw _ (norm_lt hp _)]
  have operand : ∀ f, a.source f i = b.source f i := by
    intro f
    unfold CoreOver.source
    rw [← address, hw _ (inside f)]
  unfold CoreOver.demand
  simp only [hw i hi, hc, operand, address]

/-- The writers of a cell depend on the parameters and the Words alone. -/
theorem CoreOver.writersOf_congr {O P : Type} {a : CoreOver O} {b : CoreOver P} (hc : a.cfg = b.cfg)
    (hs : a.size = b.size) (hp : 0 < a.size) (hw : ∀ d < a.size, a.word d = b.word d) (d : Nat) :
    a.writersOf d = b.writersOf d := by
  unfold CoreOver.writersOf
  rw [← hs]
  apply List.filter_congr
  intro i hi
  rw [CoreOver.demand_congr hc hs hp hw (List.mem_range.mp hi)]

end Sys2Proof.Machine
end

