-- ==== Sys2Proof/Tests/Slice0.lean ====
section
/-! SUPPORT. Tests of the model, and witnesses for the statements. Expected values come from the worked examples
and tables of spec/, cited at each test, or by hand from its rules. -/

namespace Sys2Proof.Tests

open Sys2Proof Sys2Proof.Machine

/-! ## Helpers -/

/-- A core of `n` cells with the words `ws` from cell 0 on, cell i of them owned by i + 1; other cells blank. -/
def seed (n : Nat) (ws : List Int) : State :=
  ws.zipIdx.foldl (fun s p => s.write p.2 p.1 ⟨p.2 + 1⟩) { State.reset with size := n }

/-- The words after one step. -/
def wordsAfter (s : State) : Option (List Int) :=
  match step s with
  | .next t => some t.words
  | .fault _ => none
  | .refused _ => none

/-- The owners after one step. -/
def ownersAfter (s : State) : Option (List Nat) :=
  match step s with
  | .next t => some (t.owners.map Owner.id)
  | .fault _ => none
  | .refused _ => none

/-- The requests an instruction makes at the executing cell: destination, value, owner. -/
def asked (i : Instr) (s : State) : List (Nat × Int × Nat) :=
  (requestsIn (exec i s)).map (fun r => (r.dest, r.value, r.owner.id))

/-- What an assembly that succeeds gives: the count and the labels. -/
def assembled (text : String) (address : Int) (s : State) : Option (Nat × LabelTable) :=
  match assemble text.toList address ⟨1⟩ s with
  | .done n labels _ => some (n, labels)
  | .failed _ _ => none
  | .refused _ => none

/-- The error of an assembly that fails. -/
def errorOf (text : String) (s : State) : Option HostError :=
  match assemble text.toList 0 ⟨1⟩ s with
  | .done _ _ _ => none
  | .failed e _ => some e
  | .refused _ => none

/-- The words an assembly leaves in the core, whether it succeeds or not. -/
def coreAfter (text : String) (address : Int) (s : State) : Option (List Int × List Nat) :=
  match assemble text.toList address ⟨1⟩ s with
  | .done _ _ t => some (t.words, t.owners.map Owner.id)
  | .failed _ t => some (t.words, t.owners.map Owner.id)
  | .refused _ => none

/-- Why the model refuses an assembly. -/
def refusal (text : String) (s : State) : Option Refusal :=
  match assemble text.toList 0 ⟨1⟩ s with
  | .done _ _ _ => none
  | .failed _ _ => none
  | .refused r => some r

/-- The direct field of offset 0. -/
def own : AddressField := .direct 0

/-- Other parameters: 24 bits, opcodes 0 and 58 to 62, and condition numbers turned round. -/
def otherConfig : Config where
  xlen := 24
  opAdd := 0
  opSub := 58
  opAnd := 59
  opBic := 60
  opOr := 61
  opXor := 62
  ccZero := 3
  ccPositive := 2
  ccNegative := 1
  ccNonZero := 0

/-- The default parameters with one of them changed. -/
def withXlen (n : Nat) : Config := { Config.default with xlen := n }

def withOpXor (op : BitVec 6) : Config := { Config.default with opXor := op }

def withOpAdd (op : BitVec 6) : Config := { Config.default with opAdd := op }

def withCcNonZero (cc : BitVec 2) : Config := { Config.default with ccNonZero := cc }

/-! ## Well-formed instructions -/

/-- Smoke test: each check of `Instr.wf` refuses an ill-formed term. -/
theorem test_wf_refuses :
    (Instr.add .zero (.direct (-5)) own own own).wf Config.default = false ∧
    (Instr.sub .zero own (.direct 4) own own).wf Config.default = false ∧
    (Instr.and .zero own own (.pointer 4) own).wf Config.default = false ∧
    (Instr.bic .zero own own own (.pointer (-5))).wf Config.default = false ∧
    (Instr.or .zero (.direct 4) own own own).wf Config.default = false ∧
    (Instr.xor .zero own (.pointer (-5)) own own).wf Config.default = false ∧
    (Instr.inertOp0 .zero own own own own).wf otherConfig = false ∧
    (Instr.inertOp0 .zero own own own (.direct 4)).wf Config.default = false ∧
    (Instr.inertOp7 6 .zero own own own own).wf Config.default = false ∧
    (Instr.inertOp7 0 .zero own own own own).wf Config.default = false ∧
    (Instr.inertOp7 8 .zero own own own own).wf Config.default = false ∧
    (Instr.inertOp8To15 7 .zero own own own own).wf Config.default = false ∧
    (Instr.inertOp8To15 16 .zero own own own own).wf Config.default = false ∧
    (Instr.inertOp16To31 15 .zero own own own own).wf Config.default = false ∧
    (Instr.inertOp16To31 32 .zero own own own own).wf Config.default = false ∧
    (Instr.inertOp32To63 31 .zero own own own own).wf Config.default = false ∧
    (Instr.inertOp32To63 58 .zero own own own own).wf otherConfig = false := by decide

/-- The offsets at the ends of the range, and the opcodes at the ends of the inert rows, are well formed. -/
theorem test_wf_accepts :
    (Instr.add .zero (.direct (-4)) (.direct 3) (.pointer (-4)) (.pointer 3)).wf Config.default = true ∧
    (Instr.inertOp7 7 .zero own own own own).wf Config.default = true ∧
    (Instr.inertOp7 1 .zero own own own own).wf otherConfig = true ∧
    (Instr.inertOp8To15 8 .zero own own own own).wf Config.default = true ∧
    (Instr.inertOp8To15 15 .zero own own own own).wf Config.default = true ∧
    (Instr.inertOp16To31 16 .zero own own own own).wf Config.default = true ∧
    (Instr.inertOp16To31 31 .zero own own own own).wf Config.default = true ∧
    (Instr.inertOp32To63 32 .zero own own own own).wf Config.default = true ∧
    (Instr.inertOp32To63 63 .zero own own own own).wf Config.default = true := by decide

/-- The parameters of the two test configurations meet the constraints of `00_scope.md` rule R5. -/
theorem test_config_wf : Config.default.wf ∧ otherConfig.wf := by decide

/-- Each constraint of `00_scope.md` rule R5 refuses parameters that break it: a Word too narrow, two operations of
one number, two conditions of one number, and an all-zero Word that is a writer. -/
theorem test_config_refuses :
    (¬ Config.wf (withXlen 23) ∧ ¬ Config.wf (withOpXor 1)) ∧
    (¬ Config.wf (withCcNonZero 0) ∧ ¬ Config.wf (withOpAdd 0)) :=
  ⟨by decide, by decide⟩

/-! ## Decoding, from words written out bit by bit -/

/-- `95_test_vectors.md` 2.1: op 000001, cc 00, ca 1010, t 1100, s1 1011, s2 0111 is `IF.Z @2 ADD @-4 @3 -1`. -/
theorem test_decode_add :
    decodeTableWord 24 0b000001_00_1010_1100_1011_0111 =
      some (.add .zero (.pointer 2) (.pointer (-4)) (.pointer 3) (.direct (-1))) := by decide

/-- `95_test_vectors.md` 2.1: `SUB 1 1 2`. -/
theorem test_decode_sub :
    decodeTableWord 24 0b000010_11_0000_0001_0001_0010 =
      some (.sub .nonZero own (.direct 1) (.direct 1) (.direct 2)) := by decide

/-- `95_test_vectors.md` 2.1: `IF.Z @2 AND @-4 @3 -1`. -/
theorem test_decode_and :
    decodeTableWord 24 0b000011_00_1010_1100_1011_0111 =
      some (.and .zero (.pointer 2) (.pointer (-4)) (.pointer 3) (.direct (-1))) := by decide

/-- `95_test_vectors.md` 2.1: `IF.Z @2 BIC @-4 @3 -1`. -/
theorem test_decode_bic :
    decodeTableWord 24 0b000100_00_1010_1100_1011_0111 =
      some (.bic .zero (.pointer 2) (.pointer (-4)) (.pointer 3) (.direct (-1))) := by decide

/-- `95_test_vectors.md` 2.1: `IF.Z @2 OR @-4 @3 -1`. -/
theorem test_decode_or :
    decodeTableWord 24 0b000101_00_1010_1100_1011_0111 =
      some (.or .zero (.pointer 2) (.pointer (-4)) (.pointer 3) (.direct (-1))) := by decide

/-- `95_test_vectors.md` 2.1: `IF.- @-4 XOR @1 @3 -2`. -/
theorem test_decode_xor :
    decodeTableWord 24 0b000110_10_1100_1001_1011_0110 =
      some (.xor .negative (.pointer (-4)) (.pointer 1) (.pointer 3) (.direct (-2))) := by decide

/-- The two conditions the words above leave out: `IF.+ 1 ADD 0 0 0` (`95_test_vectors.md` 2.1). -/
theorem test_decode_positive :
    decodeTableWord 24 0b000001_01_0001_0000_0000_0000 = some (.add .positive (.direct 1) own own own) := by
  decide

/-- `95_test_vectors.md` 2.1: 262143 has opcode 0, condition 3 and four fields `@-1`. -/
theorem test_decode_inert_op0 :
    decodeTableWord 24 0b000000_11_1111_1111_1111_1111 =
      some (.inertOp0 .nonZero (.pointer (-1)) (.pointer (-1)) (.pointer (-1)) (.pointer (-1))) := by decide

/-- `95_test_vectors.md` 2.1: 0x1C0000 is inert; `30_encoding.md` rule R70, opcode 7. -/
theorem test_decode_inert_op7 :
    decodeTableWord 24 0b000111_00_0000_0000_0000_0000 = some (.inertOp7 7 .zero own own own own) := by decide

/-- `30_encoding.md` rule R70: opcodes 8 and 15 are one row. -/
theorem test_decode_inert_op8_15 :
    decodeTableWord 24 0b001000_00_0000_0000_0000_0000 = some (.inertOp8To15 8 .zero own own own own) ∧
    decodeTableWord 24 0b001111_00_0000_0000_0000_0001 =
      some (.inertOp8To15 15 .zero own own own (.direct 1)) := by decide

/-- `30_encoding.md` rule R70: opcodes 16 and 31 are one row. -/
theorem test_decode_inert_op16_31 :
    decodeTableWord 24 0b010000_00_0000_0000_0000_0000 = some (.inertOp16To31 16 .zero own own own own) ∧
    decodeTableWord 24 0b011111_00_0000_0000_0000_0100 =
      some (.inertOp16To31 31 .zero own own own (.direct (-4))) := by decide

/-- `95_test_vectors.md` 2.1: 0x800000 and 0xFC0000 are inert, opcodes 32 and 63. -/
theorem test_decode_inert_op32_63 :
    decodeTableWord 24 0b100000_00_0000_0000_0000_0000 = some (.inertOp32To63 32 .zero own own own own) ∧
    decodeTableWord 24 0b111111_00_0000_0000_0000_0000 = some (.inertOp32To63 63 .zero own own own own) := by
  decide

/-- `95_test_vectors.md` 2.1: bits above 23 are ignored, in positive and negative Words. -/
theorem test_decode_ignores_high_bits :
    decode Config.default 17236242 = .add .nonZero own (.direct 1) (.direct 1) (.direct 2) ∧
    decode Config.default (-16318190) = .add .nonZero own (.direct 1) (.direct 1) (.direct 2) ∧
    (unpack (-1)).op = 63 ∧ (unpack (-262145)).op = 62 ∧ pack (unpack 0x01070112) = 0x070112 := by decide

/-- `95_test_vectors.md` S1: the packed words. -/
theorem test_pack :
    pack ⟨1, 3, own, .direct 1, .direct 2, .direct 3⟩ = 0x070123 ∧
    pack ⟨63, 3, .pointer (-1), .pointer (-1), .pointer (-1), .pointer (-1)⟩ = 0xFFFFFF ∧
    pack ⟨0, 0, own, own, own, own⟩ = 0 ∧ pack ⟨32, 0, own, own, own, own⟩ = 8388608 := by decide

/-- With other parameters the numbers change and the behaviour by mnemonic does not (`95_test_vectors.md`,
opening): opcode 0 under condition 0 is here `IF.NZ` ADD, and 1 is inert. -/
theorem test_decode_other_parameters :
    decode otherConfig 0 = .add .nonZero own own own own ∧
    decode otherConfig 0x040000 = .inertOp7 1 .nonZero own own own own ∧
    encode otherConfig (.xor .zero own own own own) = 0b111110_11_0000_0000_0000_0000 := by decide

/-! ## Addresses and conditions -/

/-- `95_test_vectors.md` S5: N = 8, i = 7, words[0] = -3: `@1` is cell 5. -/
theorem test_ea_indirect : ((seed 8 [-3]).atSite 7).ea (.pointer 1) = 5 := by decide

/-- `20_memory.md` rule R41 and S8: any integer reaches a cell. -/
theorem test_norm_wraps : ((seed 8 [0, 1, 99]).memRead 10, (seed 8 [0, 1, 99]).memRead (-6)) = (99, 99) := by
  decide

/-- `40_decode_condition.md` rule R92: the four tests on 0, 1 and -1. -/
theorem test_conditions :
    ([0, 1, -1] : List Int).map (fun v => [Cond.zero, .positive, .negative, .nonZero].map (condTest · v)) =
      [[true, false, false, false], [false, true, false, true], [false, false, true, true]] := by decide

/-! ## The instructions, one step each -/

/-- `95_test_vectors.md` 2.4: `ADD 1 1 2` at the top of the range wraps, and the cell's owner is the writer's. -/
theorem test_add_wraps :
    (wordsAfter (seed 8 [0x070112, 2147483647, 1])) = some [0x070112, -2147483648, 1, 0, 0, 0, 0, 0] ∧
    (ownersAfter (seed 8 [0x070112, 2147483647, 1])) = some [1, 1, 3, 0, 0, 0, 0, 0] := by decide

/-- `95_test_vectors.md` 2.4: `ADD 1 @2 @3` reads through two pointers. -/
theorem test_add_indirect :
    wordsAfter (seed 8 [0x0701AB, 0, 2, -3, 100]) = some [0x0701AB, 459279, 2, -3, 100, 0, 0, 0] := by decide

/-- `42_alu.md` rule R113 by hand: 5 - 7, in that order, and the bottom of the range less 1. -/
theorem test_sub_order :
    asked (.sub .nonZero own (.direct 1) (.direct 1) (.direct 2)) (seed 8 [0x0B0112, 5, 7]) = [(1, -2, 1)] ∧
    asked (.sub .nonZero own (.direct 1) (.direct 1) (.direct 2)) (seed 8 [0x0B0112, -2147483648, 1]) =
      [(1, 2147483647, 1)] := by decide

/-- `42_alu.md` rule R114 by hand: 12 and 10, and the sign bit of -1 and the least Word. -/
theorem test_and :
    asked (.and .nonZero own (.direct 1) (.direct 1) (.direct 2)) (seed 8 [0x0F0112, 12, 10]) = [(1, 8, 1)] ∧
    asked (.and .nonZero own (.direct 1) (.direct 1) (.direct 2)) (seed 8 [0x0F0112, -1, -2147483648]) =
      [(1, -2147483648, 1)] := by decide

/-- `42_alu.md` rule R115 by hand: 12 and not 10 is 4; -1 and not the greatest Word leaves the sign bit. -/
theorem test_bic :
    asked (.bic .nonZero own (.direct 1) (.direct 1) (.direct 2)) (seed 8 [0x130112, 12, 10]) = [(1, 4, 1)] ∧
    asked (.bic .nonZero own (.direct 1) (.direct 1) (.direct 2)) (seed 8 [0x130112, -1, 2147483647]) =
      [(1, -2147483648, 1)] := by decide

/-- `42_alu.md` rule R116 by hand: 12 or 10 is 14; the sign bit joins. -/
theorem test_or :
    asked (.or .nonZero own (.direct 1) (.direct 1) (.direct 2)) (seed 8 [0x170112, 12, 10]) = [(1, 14, 1)] ∧
    asked (.or .nonZero own (.direct 1) (.direct 1) (.direct 2)) (seed 8 [0x170112, -2147483648, 1]) =
      [(1, -2147483647, 1)] := by decide

/-- `42_alu.md` rule R117 by hand: 12 and 10 differ in 6; -1 complements. -/
theorem test_xor :
    asked (.xor .nonZero own (.direct 1) (.direct 1) (.direct 2)) (seed 8 [0x1B0112, 12, 10]) = [(1, 6, 1)] ∧
    asked (.xor .nonZero own (.direct 1) (.direct 1) (.direct 2)) (seed 8 [0x1B0112, -1, 5]) = [(1, -6, 1)] := by
  decide

/-- `95_test_vectors.md` 2.4: `XOR 0 0 0` clears its own cell and keeps its owner. -/
theorem test_xor_own_cell :
    wordsAfter (seed 4 [0x1B0000]) = some [0, 0, 0, 0] ∧ ownersAfter (seed 4 [0x1B0000]) = some [1, 0, 0, 0] := by
  decide

/-- `42_alu.md` rule R118: one word of every inert row, all four fields pointing, does nothing. -/
theorem test_inert :
    wordsAfter (seed 6 [0x03FFFF, 0x1FFFFF, 0x23FFFF, 0x7FFFFF, 0x83FFFF, -1]) =
      some [0x03FFFF, 0x1FFFFF, 0x23FFFF, 0x7FFFFF, 0x83FFFF, -1] ∧
    ownersAfter (seed 6 [0x03FFFF, 0x1FFFFF, 0x23FFFF, 0x7FFFFF, 0x83FFFF, -1]) =
      some [1, 2, 3, 4, 5, 6] := by decide

/-- `95_test_vectors.md` 2.2: the sign the condition sees is that of the whole Word. -/
theorem test_condition_on_whole_word :
    wordsAfter (seed 3 [393490, 5, 7]) = some [393490, 5, 7] ∧
    wordsAfter (seed 3 [-16383726, 5, 7]) = some [-16383726, 12, 7] := by decide

/-! ## Conflict and commit -/

/-- `95_test_vectors.md` S3: two writers of cell 1, nothing changes. -/
theorem test_conflict :
    wordsAfter (seed 3 [0x170100, 0, 0x170700]) = some [0x170100, 0, 0x170700] ∧
    ownersAfter (seed 3 [0x170100, 0, 0x170700]) = some [1, 2, 3] := by decide

/-- `95_test_vectors.md` S4: a value that does not change still changes the owner. -/
theorem test_commit_owner :
    wordsAfter (seed 8 [0x170100, 0x170100]) = some [0x170100, 0x170100, 0x170100, 0, 0, 0, 0, 0] ∧
    ownersAfter (seed 8 [0x170100, 0x170100]) = some [1, 1, 2, 0, 0, 0, 0, 0] := by decide

/-- `95_test_vectors.md` 2.5: two cells swap words and owners in one generation. -/
theorem test_swap :
    wordsAfter (seed 3 [0x170100, 0x170700]) = some [0x170700, 0x170100, 0] ∧
    ownersAfter (seed 3 [0x170100, 0x170700]) = some [2, 1, 0] := by decide

/-- `95_test_vectors.md` 2.4: a core of one cell. -/
theorem test_one_cell : wordsAfter (seed 1 [0x070341]) = some [0x0E0682] := by decide

/-- `95_test_vectors.md` P4, first generation: the bomb lands at the old pointer, one past which the pointer now
points. -/
theorem test_bomber :
    wordsAfter (seed 8 [0x070223, 0x170933, 3, 1, 42]) = some [0x070223, 0x170933, 4, 1, 42, 42, 0, 0] := by
  decide

/-- `withFetchWord` places an instruction that the very next step runs: `XOR 0 0 0`, `OR 1 0 0`. -/
theorem test_withFetchWord :
    wordsAfter (State.reset.withFetchWord 24 0x1B0000) = some [0, 0, 0, 0, 0, 0, 0, 0] ∧
    wordsAfter (State.reset.withFetchWord 24 0x170100) = some [0x170100, 0x170100, 0, 0, 0, 0, 0, 0] := by decide

/-! ## The host port and the assembler -/

/-- `95_test_vectors.md` 2.6: constructions. -/
theorem test_construct :
    construct Config.default 0 .zeroed = .error .rangeError ∧
    construct Config.default (-3) .zeroed = .error .rangeError ∧
    construct Config.default 8 .zeroed = .ok State.reset := by decide

/-- `95_test_vectors.md` 2.6: `WRITE(-1, 7, A)` and `READ(8)`. -/
theorem test_write_read :
    (State.reset.write (-1) 7 ⟨1⟩).words = [0, 0, 0, 0, 0, 0, 0, 7] ∧
    (State.reset.write 16 7 ⟨1⟩).read 8 = 7 := by decide

/-- `95_test_vectors.md` 2.7, first row. -/
theorem test_assemble_labels :
    assembled "x: OR y x x\ny: 0" 6 State.reset = some (2, [(['y'], 7), (['x'], 6)]) ∧
    coreAfter "x: OR y x x\ny: 0" 6 State.reset =
      some ([0, 0, 0, 0, 0, 0, 0x170100, 0], [0, 0, 0, 0, 0, 0, 1, 1]) := by decide

/-- `95_test_vectors.md` 2.7, second row: the words wrap round the end of the core. -/
theorem test_assemble_wraps :
    coreAfter "0\n0\nADD 0 0 0" 7 State.reset =
      some ([0, 0x070000, 0, 0, 0, 0, 0, 0], [1, 1, 0, 0, 0, 0, 0, 1]) := by decide

/-- `95_test_vectors.md` 2.7: the four errors, and the words of earlier lines that stay. -/
theorem test_assemble_errors :
    errorOf "a: 0\n0\n0\n0\n0\nADD a 0 0" State.reset = some .rangeError ∧
    errorOf "ADD 0 0 0\na: 0\na: 0" State.reset = some .redefinitionError ∧
    errorOf "ADD 0 0 0\nADD nowhere 0 0" State.reset = some .referenceError ∧
    errorOf "ADD 0 0 0\nMOV 0 0 0" State.reset = some .syntaxError := by decide

/-- `95_test_vectors.md` 2.7: the word of the line before an error stays. -/
theorem test_assemble_error_keeps :
    coreAfter "ADD 0 0 0\nMOV 0 0 0" 0 State.reset =
      some ([0x070000, 0, 0, 0, 0, 0, 0, 0], [1, 0, 0, 0, 0, 0, 0, 0]) := by decide

/-- `95_test_vectors.md` P3: both condition prefixes, comments, labels before and after. -/
theorem test_assemble_program :
    (coreAfter "loop: IF.+ cnt SUB cnt cnt one ; x\ncnt: 3\none: 1\n IF.Z cnt XOR loop loop loop" 0
      State.reset).map Prod.fst = some [0x091112, 3, 1, 0x186555, 0, 0, 0, 0] := by decide

/-- `30_encoding.md` rule R78 with `92_eei_decisions.md` D23, by hand: precedence and grouping. -/
theorem test_assemble_literal :
    (coreAfter "2+3*4\n(2+3)*-4\n10-4-3\n12/3/2" 0 State.reset).map Prod.fst =
      some [14, -20, 3, 2, 0, 0, 0, 0] ∧
    (coreAfter "0\na: a -1 -1\nb: a+b +1" 0 State.reset).map Prod.fst = some [0, -1, 4, 0, 0, 0, 0, 0] := by decide

/-- `92_eei_decisions.md` D25 and `30_encoding.md` rule R76, rule R79: an operand that is neither a number nor a
label, an unknown mnemonic, an unknown condition and malformed lines are SyntaxErrors. -/
theorem test_assemble_syntax_errors :
    ["ADD #0x5 0 0", "ADD 0 0 0 9z", "ADD 0 0 +", "MOV -1 -1 -1", "MOV 0 0 0", "IF.++ 0 ADD 0 0 0",
      "IF.-Z 0 ADD 0 0 0", "IF.+Z 0 ADD 0 0 0", "-", "a b", "2+", ": 0"].all
      (fun t => decide (errorOf t State.reset = some .syntaxError)) = true := by decide

/-- `60_exceptions.md` rule R192: pass 1 comes before pass 2, and the error of an earlier line before that of a
later one. -/
theorem test_assemble_error_order :
    errorOf "a: 0\na: 0\nADD #0x5 0 0" State.reset = some .redefinitionError ∧
    errorOf "a: 0\na: 1x" State.reset = some .redefinitionError ∧
    errorOf "MOV 0 0 0\nADD +1 0 0" State.reset = some .syntaxError ∧
    coreAfter "ADD 0 0 0\nADD #5 0 0" 0 State.reset =
      some ([0x070000, 0, 0, 0, 0, 0, 0, 0], [1, 0, 0, 0, 0, 0, 0, 0]) := by decide

/-- The refusals of a literal (`92_eei_decisions.md` D22, D23). -/
theorem test_assemble_refusals :
    refusal "2147483648" State.reset = some .literalOutOfRange ∧ refusal "7/2" State.reset = some .literalDivision ∧
    refusal "7/0" State.reset = some .literalDivision ∧ refusal "2147483647" State.reset = none := by decide

/-- The spellings that the spec leaves open (`93_implementation_defined.md` I13, `91_not_in_source.md` N16, N17), and
their neighbours that it does not. -/
theorem test_assemble_open_spellings :
    ["if.z 0 ADD 0 0 0", "IF.nz 0 ADD 0 0 0", "1x", "0x10+1", "ADD +1 0 0", "ADD 0 @+1 0", "3*+4", "-(1)", "2--a",
      "1a: 0", "b.c: 0"].all (fun t => decide (refusal t State.reset = some .unstatedLexeme)) = true ∧
    ["IF.+ -1 ADD @-1 0 0", "(2+3)*-4 - (-5)+a\na: 0", "add 0 0 0"].all
      (fun t => decide (refusal t State.reset = none ∧ errorOf t State.reset = none)) = true := by decide

/-- `30_encoding.md` rule R84: listings with and without the prefix, and none of an inert Word. -/
theorem test_listing :
    listing (decode Config.default 0x1AC9B6) = some "IF.- @-4 XOR @1 @3 -2".toList ∧
    listing (decode Config.default 0x070123) = some "ADD 1 2 3".toList ∧
    listing (decode Config.default 42) = none := by decide

/-! ## Witnesses: for every statement with hypotheses, a case that meets them -/

/-- `95_test_vectors.md` 2.5: cells 0 and 1 write each other, in a core of three. -/
def swapping : State := seed 3 [0x170100, 0x170700]

/-- `95_test_vectors.md` S3: cells 0 and 2 both write cell 1. -/
def clashing : State := seed 3 [0x170100, 0, 0x170700]

/-- Two non-blank owners over all-zero Words. -/
def zeroed : State := { State.reset with mem := [(2, ⟨0, ⟨7⟩⟩), (5, ⟨0, ⟨9⟩⟩)] }

/-- The same Words as `swapping`, with other owners. -/
def reowned : State := (swapping.write 0 0x170100 ⟨8⟩).write 2 0 ⟨9⟩

/-- `swapping` moved round by one cell. -/
def rotated : State :=
  { swapping with mem := [(1, ⟨0x170100, ⟨1⟩⟩), (2, ⟨0x170700, ⟨2⟩⟩)] }

/-- A core whose one cell of `XOR 0 0 0` clears itself. -/
def clearing : State := seed 4 [0x1B0000]

/-- What holds of the cells 0..n-1 holds at every integer address. -/
theorem forall_norm {n : Nat} (h : 0 < n) {P : Nat → Prop} (all : ∀ d < n, P d) (z : Int) : P (norm n z) :=
  all _ (norm_lt h z)

theorem test_witness_CodecLaws :
    (Fields.mk 63 3 (.direct (-4)) (.direct 3) (.pointer (-4)) (.pointer 3)).wf ∧
    ((0 : Int) ≤ 2 ^ 24 - 1 ∧ (2 ^ 24 - 1 : Int) < 2 ^ 24) := by decide

theorem test_witness_PackIsTheSumOfItsParts :
    (Fields.mk 0 0 (.pointer 3) (.pointer (-4)) (.direct 3) (.direct (-4))).wf := by decide

theorem test_witness_UnpackReadsTheFieldPositions :
    (17236242 : Int) % 2 ^ 24 = 0x070112 % 2 ^ 24 ∧ (-1 : Int) % 2 ^ 24 = 0xFFFFFF % 2 ^ 24 := by decide

theorem test_witness_DecodeOfEncode :
    (Config.default.wf ∧
      (Instr.add .negative (.direct (-4)) (.direct 3) (.pointer (-4)) (.pointer 3)).wf Config.default = true) ∧
    (otherConfig.wf ∧ (Instr.inertOp7 1 .zero own own own (.pointer 3)).wf otherConfig = true) :=
  ⟨by decide, by decide⟩

theorem test_witness_EncodeOfDecode : Config.default.wf ∧ otherConfig.wf := test_config_wf

theorem test_witness_RecognisedOpcodes :
    (Config.default.wf ∧ otherConfig.wf) ∧
    (State.reset.cfg.operationOf (unpack 0).op = none ∧ State.reset.cfg.operationOf (unpack 0x1C0000).op = none ∧
      State.reset.cfg.operationOf (unpack (-1)).op = none) := ⟨test_config_wf, by decide⟩

theorem test_witness_NormIsTheFloorModulus :
    0 < 8 ∧ (7 : Nat) < 8 ∧ ((8 : Nat) : Int) ∣ -9 - (7 : Nat) := by decide

theorem test_witness_EffectiveAddressOfBothModes : 0 < swapping.size ∧ 0 < (seed 1 []).size := by decide

theorem test_witness_AddressCorners :
    (0 < (seed 1 []).size ∧ (seed 1 []).size = 1) ∧ (0 < (seed 4 []).size ∧ (seed 4 []).size = 4) ∧
    clashing.memRead (clashing.site + (1 : Int)) = 0 ∧ clashing.site < clashing.size := by decide

theorem test_witness_WriterExactlyWhereConditionHolds :
    (let f := unpack (swapping.memRead swapping.site)
     swapping.holds (swapping.cfg.condOf f.cc) f.ca = true ∧ (swapping.cfg.operationOf f.op).isSome = true) ∧
    (let f := unpack (State.reset.memRead State.reset.site)
     ¬ (State.reset.holds (State.reset.cfg.condOf f.cc) f.ca = true ∧
        (State.reset.cfg.operationOf f.op).isSome = true)) := by decide

theorem test_witness_FailedConditionMakesNoRequest :
    swapping.holds .zero own = false ∧ swapping.holds .negative own = false ∧
    State.reset.holds .nonZero own = false ∧ State.reset.holds .positive own = false := by decide

/-- The hypotheses of `AddRequestsTheWrappedSum`, `SubRequestsTheWrappedDifference`, `AndRequestsTheBitwiseAnd`,
`BicRequestsTheBitClear`, `OrRequestsTheBitwiseOr` and `XorRequestsTheBitwiseExclusiveOr` are the same; the
last bit their bit clauses speak of is bit XLEN - 1. -/
theorem test_witness_results :
    24 ≤ swapping.cfg.xlen ∧ swapping.holds .nonZero own = true ∧ swapping.holds .positive (.pointer 0) = true ∧
    31 < swapping.cfg.xlen := by decide

theorem test_witness_EqualSources :
    24 ≤ swapping.cfg.xlen ∧ (∀ z : Int, inRange swapping.cfg.xlen (swapping.memRead z)) ∧
    swapping.holds .nonZero own = true :=
  ⟨by decide, fun z => forall_norm (n := 3) (P := fun d => inRange 32 (swapping.mem.load d).word) (by decide)
    (by decide) z, by decide⟩

theorem test_witness_AllZeroWordIsNeverAWriter :
    (State.reset.cfg.wf ∧ State.reset.site < State.reset.size ∧ State.reset.memRead State.reset.site = 0) ∧
    (let s := { State.reset with cfg := otherConfig }
     s.cfg.wf ∧ s.site < s.size ∧ s.memRead s.site = 0) := ⟨by decide, by decide⟩

theorem test_witness_SmallDataIsInert :
    State.reset.cfg = Config.default ∧ (2 ^ 24 + 5 : Int) / 2 ^ 18 % 64 = 0 ∧ 7 ≤ (0x1C0000 : Int) / 2 ^ 18 % 64 ∧
    (-2 ^ 18 ≤ (-2 ^ 18 : Int) ∧ (2 ^ 18 - 1 : Int) ≤ 2 ^ 18 - 1) := by decide

theorem test_witness_DefaultConditionHoldsOnPackedInstructions :
    swapping.cfg = Config.default ∧ swapping.site < swapping.size ∧
    swapping.memRead swapping.site =
      encode swapping.cfg (Operation.or.instr .nonZero own (.direct 1) own own) := by decide

theorem test_witness_InertInstructionsDoNothing :
    (unpack 0).op ∉ State.reset.cfg.assigned ∧ (unpack 0x1C0000).op ∉ State.reset.cfg.assigned ∧
    (unpack (-1)).op ∉ State.reset.cfg.assigned ∧ (unpack 0x040000).op ∉ otherConfig.assigned := by decide

theorem test_witness_StepRunsEveryDecodedInstruction : 0 < swapping.size ∧ 0 < State.reset.size := by decide

/-- A cell with no writer, cells with one, and a cell with two. -/
theorem test_witness_StepIsTheGeneration :
    (0 < swapping.size ∧ Memory.wf swapping.mem) ∧ (0 < clashing.size ∧ Memory.wf clashing.mem) ∧
    (swapping.writersOf 2).length = 0 ∧ swapping.writersOf 0 = [1] ∧
    swapping.requestOf 1 = some ⟨0, 0x170700, ⟨2⟩⟩ ∧ 2 ≤ (clashing.writersOf 1).length := by decide

theorem test_witness_ConflictKeepsTheDestination :
    (0 < clashing.size ∧ Memory.wf clashing.mem ∧ 0 < clashing.size ∧ 2 < clashing.size ∧ (0 : Nat) ≠ 2) ∧
    clashing.requestOf 0 = some ⟨1, 0x170100, ⟨1⟩⟩ ∧ clashing.requestOf 2 = some ⟨1, 0x170700, ⟨3⟩⟩ := by decide

theorem test_witness_TouchedSetGivesTheCommit :
    Memory.wf clashing.mem ∧
    List.Perm [⟨1, 5, ⟨1⟩⟩, ⟨1, 6, ⟨2⟩⟩, ⟨0, 7, ⟨3⟩⟩] ([⟨0, 7, ⟨3⟩⟩, ⟨1, 6, ⟨2⟩⟩, ⟨1, 5, ⟨1⟩⟩] : List Request) := by
  decide

theorem test_witness_WhatAStepCannotDo :
    (swapping.Inv ∧ ∃ t, step swapping = .next t) ∧ (swapping.writersOf 0).length = 1 :=
  ⟨⟨by decide, _, step_eq (by decide)⟩, by decide⟩

theorem test_witness_StepKeepsTheInvariant :
    (swapping.Inv ∧ ∃ t, step swapping = .next t) ∧ clashing.Inv ∧ ∃ t, step clashing = .next t :=
  ⟨⟨by decide, _, step_eq (by decide)⟩, by decide, _, step_eq (by decide)⟩

theorem test_witness_OnlyAnEmptyCoreStops : (seed 0 []).size = 0 ∧ 0 < (seed 1 []).size := by decide

theorem test_witness_OwnersNeverReachWords :
    swapping.Inv ∧ reowned.Inv ∧ swapping.cfg = reowned.cfg ∧ swapping.size = reowned.size ∧
    swapping.instructionCounter = reowned.instructionCounter ∧
    (∀ z : Int, swapping.memRead z = reowned.memRead z) ∧ (∃ t, step swapping = .next t) ∧
    (∃ t, step reowned = .next t) ∧ swapping ≠ reowned :=
  ⟨by decide, by decide, by decide, by decide, by decide,
    forall_norm (n := 3) (P := fun d => (swapping.mem.load d).word = (reowned.mem.load d).word) (by decide)
      (by decide),
    ⟨_, step_eq (by decide)⟩, ⟨_, step_eq (by decide)⟩, by decide⟩

/-- Three cells over the owner type Bool: the words of `swapping`, cell 1 owned by true. -/
def overBool : CoreOver Bool := ⟨Config.default, 3, fun d => if d = 0 then 0x170100 else if d = 1 then 0x170700 else 0,
  fun d => d = 1, 0⟩

theorem test_witness_OwnersNeverReachWords_types :
    (overBool.cfg.wf ∧ 0 < overBool.size ∧ ∀ d < overBool.size, inRange overBool.cfg.xlen (overBool.word d)) ∧
    (swapping.Inv ∧ swapping.Shows (fun o => decide (o.id = 2)) overBool) ∧
    ∀ d < 3, inRange Config.default.xlen ((fun d => -d : Nat → Int) d) :=
  ⟨by decide, ⟨by decide, by decide, by decide, by decide, by decide⟩, by decide⟩

theorem test_witness_CounterIsNeverRead : 0 < swapping.size ∧ ∃ t, step swapping = .next t :=
  ⟨by decide, _, step_eq (by decide)⟩

theorem test_witness_StepCommutesWithRotation :
    swapping.Inv ∧ rotated.Inv ∧ swapping.cfg = rotated.cfg ∧ swapping.size = rotated.size ∧
    (∀ z : Int, rotated.cellAt (z + 1) = swapping.cellAt z) ∧ (∃ t, step swapping = .next t) ∧
    (∃ t, step rotated = .next t) := by
  refine ⟨by decide, by decide, by decide, by decide, ?_, ⟨_, step_eq (by decide)⟩, ⟨_, step_eq (by decide)⟩⟩
  intro z
  have next : norm 3 (z + 1) = norm 3 (norm 3 z + 1 : Int) := by
    apply norm_congr
    rw [norm_cast (by decide)]
    omega
  have cell := forall_norm (n := 3)
    (P := fun d => rotated.mem.load (norm 3 ((d : Int) + 1)) = swapping.mem.load d) (by decide) (by decide) z
  show rotated.mem.load (norm 3 (z + 1)) = _
  rw [next]
  exact cell

theorem test_witness_ZeroedCoreIsAFixedPoint : zeroed.Inv ∧ ∀ z : Int, zeroed.memRead z = 0 :=
  ⟨by decide, forall_norm (n := 8) (P := fun d => (zeroed.mem.load d).word = 0) (by decide) (by decide)⟩

theorem test_witness_ClearingItselfStopsACell :
    clearing.Inv ∧ 0 < clearing.size ∧
    decode clearing.cfg (clearing.memRead (0 : Nat)) = .xor .nonZero own own own own ∧
    (clearing.atSite 0).holds .nonZero own = true ∧
    ∀ j < clearing.size, j ≠ 0 → ∀ r, clearing.requestOf j = some r → r.dest ≠ 0 := by
  refine ⟨by decide, by decide, by decide, by decide, ?_⟩
  intro j hj h0 r hr
  have none : ∀ j < 4, j ≠ 0 → clearing.requestOf j = none := by decide
  rw [none j hj h0] at hr
  cases hr

/-- In `swapping` cell 0 holds `OR 1 0 0` and cell 1 asks for cell 0, not for cell 1. -/
theorem test_witness_LoneWriterStoresItsResult :
    swapping.Inv ∧ 0 < swapping.size ∧
    decode swapping.cfg (swapping.memRead (0 : Nat)) = Operation.or.instr .nonZero own (.direct 1) own own ∧
    (swapping.atSite 0).holds .nonZero own = true ∧ (swapping.atSite 0).ea (.direct 1) = 1 ∧
    ∀ j < swapping.size, j ≠ 0 → ∀ r, swapping.requestOf j = some r → r.dest ≠ 1 := by
  refine ⟨by decide, by decide, by decide, by decide, by decide, ?_⟩
  intro j hj h0 r hr
  have others : ∀ j < 3, j ≠ 0 → (swapping.requestOf j).map Request.dest ≠ some 1 := by decide
  have := others j hj h0
  rw [hr] at this
  exact fun e => this (congrArg some e)

/-- A random source with the least Word everywhere. -/
def leastWords (n : Nat) : RandomSource n := ⟨fun _ => -2 ^ 31, Owner.mk, fun _ _ _ _ h => congrArg Owner.id h⟩

/-- Three draws of owners that repeat from the fourth on: only the draws of the core's own cells are distinct. -/
def threeOwners : RandomSource 3 := ⟨fun d => -d, fun d => ⟨d % 3⟩, by decide⟩

theorem test_witness_ConstructMakesTheResetState :
    ((0 : Int) ≤ 0 ∧ 0 < 1 ∧ 24 ≤ Config.default.xlen) ∧
    (∀ d < 1, inRange Config.default.xlen ((leastWords 1).word d)) ∧
    (∀ d < 3, inRange Config.default.xlen (threeOwners.word d)) ∧
    ∃ t, performAll [.step, .write (-1) 7 ⟨1⟩] State.reset = .next t :=
  ⟨by decide, by decide, by decide, _, rfl⟩

theorem test_witness_ConstructedCoresMeetTheInvariant :
    (Config.default.wf ∧ ∃ s, construct Config.default 1 .zeroed = .ok s) ∧
    (otherConfig.wf ∧ ∃ s, construct otherConfig 4 (.randomized (leastWords 4)) = .ok s) :=
  ⟨⟨by decide, _, rfl⟩, by decide, _, rfl⟩

theorem test_witness_ReadAndWrite :
    swapping.Inv ∧ inRange swapping.cfg.xlen (-2147483648) ∧ inRange swapping.cfg.xlen 2147483647 ∧
    norm swapping.size (-1) = norm swapping.size 2 ∧ norm swapping.size 0 ≠ norm swapping.size 2 := by decide

theorem test_witness_SnapshotsCopyTheArrays : 0 < swapping.size ∧ 2 < swapping.size := by decide

theorem test_witness_CounterCountsTheSteps :
    ∃ t, performAll [.write (-1) 7 ⟨1⟩, .step, .words, .step, .ctr] State.reset = .next t := ⟨_, rfl⟩

theorem test_witness_HostOperationsKeepTheInvariant :
    State.reset.Inv ∧ ∃ t, performAll [.step, .write 3 (2 ^ 40) ⟨1⟩, .read 3, .step] State.reset = .next t :=
  ⟨by decide, _, rfl⟩

theorem test_witness_HostOperationsComplete : swapping.Inv ∧ zeroed.Inv := by decide

theorem test_witness_PrintedInstructionsAssemble :
    operandsWf (.direct (-4)) (.pointer (-4)) (.direct 3) (.pointer 3) := by decide

theorem test_witness_LabelOffsets :
    LabelTable.find [(['b'], 2), (['a'], 0)] ['a'] = some 0 ∧
    LabelTable.find [(['b'], 2), (['a'], 0)] ['c'] = none := by decide

/-- Operands that resolve to offsets in range, and ones that resolve to 4 and -5. -/
theorem test_witness_OffsetsAreRangeChecked :
    (⟨false, .number (-4)⟩ : Operand).resolve [(['a'], 0)] 5 = .ok ⟨false, -4⟩ ∧
    (⟨true, .number 3⟩ : Operand).resolve [(['a'], 0)] 5 = .ok ⟨true, 3⟩ ∧
    (⟨false, .number 4⟩ : Operand).resolve [(['a'], 0)] 5 = .ok ⟨false, 4⟩ ∧
    (⟨false, .label ['a']⟩ : Operand).resolve [(['a'], 0)] 5 = .ok ⟨false, -5⟩ := by decide

/-- `(2+n)*-4/2-1`, grouped as its characters are. -/
def writtenExample : Written :=
  .sub (.div (.mul (.group (.add (.number ['2']) (.label ['n']))) (.negative ['4'])) (.number ['2'])) (.number ['1'])

theorem test_witness_LiteralValues :
    (writtenExample.wf ∧ writtenExample.spell = "(2+n)*-4/2-1".toList ∧ parseOperation writtenExample.spell = none) ∧
    (Expr.eval [(['a'], 6)] (.number (-6)) = .ok (-6) ∧ Expr.eval [(['a'], 6)] (.number 3) = .ok 3 ∧
      (-6 : Int) = -2 * 3) ∧
    (Expr.eval [] (.number 7) = .ok 7 ∧ Expr.eval [] (.number 2) = .ok 2 ∧ ¬ (2 : Int) ∣ 7) ∧
    Expr.eval [] (.number 0) = .ok 0 ∧ LabelTable.find [(['a'], 6)] ['a'] = some 6 ∧
    LabelTable.find [(['a'], 6)] ['b'] = none :=
  ⟨⟨by simp only [writtenExample, Written.wf, Written.binding]; decide, by decide, by decide⟩, by decide⟩

theorem test_witness_PassOneBindsOrRejects :
    ¬ (([⟨some ['a'], ['0']⟩, ⟨some ['a'], []⟩] : List SourceLine).filterMap SourceLine.label).Nodup ∧
    (([⟨some ['a'], ['0']⟩, ⟨none, []⟩, ⟨some ['b'], []⟩] : List SourceLine).filterMap SourceLine.label).Nodup ∧
    ([⟨some ['a'], ['0']⟩, ⟨none, []⟩, ⟨some ['b'], []⟩] : List SourceLine)[2]? = some ⟨some ['b'], []⟩ := by
  decide

/-- A line of a form, an open spelling and a line of no form; and texts with an open label and with an open line. -/
theorem test_witness_UncoveredTextIsRefused :
    (parseStatement "ADD 0 0 0".toList).isSome = true ∧
    (parseStatement ['1', 'x'] = none ∧ openSpelling ['1', 'x'] = true) ∧
    (parseStatement ['-'] = none ∧ openSpelling ['-'] = false) ∧
    (∃ table, bindLabels [⟨some ['a'], ['7']⟩, ⟨none, "b.c: 0".toList⟩] 0 [] = some table) ∧
    (⟨none, "b.c: 0".toList⟩ : SourceLine).openLabel = true ∧
    (∃ table, bindLabels [⟨some ['a'], ['7']⟩, ⟨none, ['1', 'x']⟩] 0 [] = some table) ∧
    assembleLines [⟨some ['a'], ['7']⟩, ⟨none, ['1', 'x']⟩] 0 ⟨1⟩ State.reset = .refused .unstatedLexeme :=
  ⟨by decide, by decide, by decide, ⟨_, rfl⟩, by decide, ⟨_, rfl⟩, by decide⟩

theorem test_witness_AssemblyWritesItsWords :
    ∃ n labels t, assembleLines [⟨some ['a'], ['7']⟩, ⟨none, ['a']⟩] 7 ⟨1⟩ State.reset = .done n labels t :=
  ⟨_, _, _, rfl⟩

theorem test_witness_FailedAssemblyKeepsEarlierWords :
    (∃ table, bindLabels [⟨some ['a'], ['7']⟩, ⟨none, ['b']⟩] 0 [] = some table) ∧
    ∃ t, assembleLines [⟨some ['a'], ['7']⟩, ⟨none, ['b']⟩] 7 ⟨1⟩ State.reset = .failed .referenceError t :=
  ⟨⟨_, rfl⟩, _, rfl⟩

/-- Two words in a core of three, with a cell that none reaches; and five words in it, the last of which are the
last to reach their cells. -/
theorem test_witness_WrittenWordsLandInOrder :
    (swapping.Inv ∧ (∀ w ∈ ([-2147483648, 2147483647] : List Int), inRange swapping.cfg.xlen w) ∧
      ([-2147483648, 2147483647] : List Int).length ≤ swapping.size ∧
      ∀ k < 2, norm swapping.size ((2 : Int) + (k : Nat)) ≠ 1) ∧
    ((∀ w ∈ ([5, 6, 7, 8, 9] : List Int), inRange swapping.cfg.xlen w) ∧ ([5, 6, 7, 8, 9] : List Int)[2]? = some 7 ∧
      (∀ j < 5, 2 < j → norm swapping.size ((0 : Int) + (j : Nat)) ≠ norm swapping.size ((0 : Int) + (2 : Nat))) ∧
      norm swapping.size ((0 : Int) + (4 : Nat)) = norm swapping.size ((0 : Int) + (1 : Nat))) := by decide

theorem test_witness_TwoLineExampleAssembles :
    (seed 100 []).Inv ∧ (seed 100 []).cfg = Config.default ∧ (seed 100 []).size = 100 := by decide

end Sys2Proof.Tests
end

section
/-! Index normalisation (`20_memory.md` rule R41): `norm` is the floor modulus by the core size. -/

namespace Sys2Proof.Machine

theorem norm_dvd_sub {n : Nat} (h : 0 < n) (z : Int) : (n : Int) ∣ z - norm n z := by
  rw [norm_cast h]
  exact Int.dvd_self_sub_emod

theorem eq_norm_of_dvd_sub {n r : Nat} {z : Int} (hr : r < n) (hd : (n : Int) ∣ z - r) : r = norm n z :=
  calc r = norm n (r : Int) := (norm_of_lt hr).symm
    _ = norm n z := norm_congr (Int.modEq_iff_dvd.2 hd)

theorem norm_eq_doubled_emod {n : Nat} (h : 0 < n) (z : Int) : (norm n z : Int) = (z % n + n) % n := by
  rw [norm_cast h, Int.add_emod_right, Int.emod_emod]

/-- A truncating remainder lies above `-n`, so adding `n` once makes the second remainder a floor modulus. -/
theorem norm_eq_doubled_tmod {n : Nat} (h : 0 < n) (z : Int) :
    (norm n z : Int) = (z.tmod n + n).tmod n := by
  have above : -(n : Int) < z.tmod n := Int.lt_tmod_of_pos z (by omega)
  have congruent : z.tmod n ≡ z [ZMOD n] := Int.modEq_iff_dvd.2 Int.dvd_self_sub_tmod
  rw [Int.tmod_eq_emod_of_nonneg (by omega), Int.add_emod_right, congruent, norm_cast h]

theorem norm_one (z : Int) : norm 1 z = 0 :=
  Nat.lt_one_iff.1 (norm_lt one_pos z)

/-- Settles O11: each reading of `norm` follows from its being `z % n`, and the examples evaluate. -/
theorem normIsTheFloorModulus : Obligations.NormIsTheFloorModulus := by
  unfold Obligations.NormIsTheFloorModulus
  refine ⟨fun n z h => ?_, by decide, by decide, by decide, by decide, by decide, norm_one⟩
  exact ⟨norm_lt h z, norm_dvd_sub h z, fun _ => eq_norm_of_dvd_sub, norm_eq_doubled_emod h z,
    norm_eq_doubled_tmod h z⟩

end Sys2Proof.Machine
end

section
/-! One address field (`30_encoding.md` rule R63) and the all-zero Word (rule R72): it is no writer because either
its opcode 0 is unassigned, or its condition code 0 is another condition than Zero and fails on its own value 0. -/

namespace Sys2Proof

/-- Settles O4: the flag is bit 3 by definition; the offset and its range are the laws of one field. -/
theorem addressFieldDecoding : Obligations.AddressFieldDecoding := by
  unfold Obligations.AddressFieldDecoding
  intro f
  obtain ⟨-, offset⟩ := decodeField_arith f
  obtain ⟨lo, hi⟩ := decodeField_wf f
  exact ⟨rfl, offset, lo, hi⟩

theorem unpack_zero : unpack 0 = ⟨0, 0, .direct 0, .direct 0, .direct 0, .direct 0⟩ := by decide

/-- Only the number of Zero is read as Zero, whatever the maps are. -/
theorem Config.condOf_eq_zero_iff {cfg : Config} {cc : BitVec 2} : cfg.condOf cc = .zero ↔ cc = cfg.ccZero := by
  unfold Config.condOf
  split_ifs with h <;> simp [h]

end Sys2Proof

namespace Sys2Proof.Machine

/-- Zero is the one condition that holds on the value 0. -/
theorem condTest_zero_eq_true_iff {c : Cond} : condTest c 0 = true ↔ c = .zero := by
  cases c <;> decide

/-- A cell whose opcode is unassigned or whose condition fails leaves the state as it is
(`40_decode_condition.md` rule R93). -/
theorem exec_ofFields_of_not_writer {cfg : Config} {f : Fields} {s : State}
    (h : s.holds (cfg.condOf f.cc) f.ca = true → f.op ∉ cfg.assigned) :
    exec (Instr.ofFields cfg f) s = .next s := by
  unfold Instr.ofFields
  cases ho : cfg.operationOf f.op with
  | none => exact exec_inertOf _ _ _ _ _ _ _
  | some o =>
    have fails : ¬ s.holds (cfg.condOf f.cc) f.ca = true := fun hc => by
      simp [Config.operationOf_eq_none.2 (h hc)] at ho
    exact (exec_operation _ _ _ _ _ _ _).trans (by rw [if_neg fails])

/-- On a cell that holds 0, a condition on the cell itself holds for Zero alone. -/
theorem State.holds_own_of_memRead_eq_zero {s : State} (hs : s.site < s.size) (h0 : s.memRead s.site = 0)
    {c : Cond} : s.holds c (.direct 0) = true ↔ c = .zero := by
  rw [State.memRead_eq, norm_of_lt hs] at h0
  rw [State.holds, State.operand_own hs, h0, condTest_zero_eq_true_iff]

/-- Settles O26: where the condition holds, code 0 is the number of Zero, and then the joint constraint of rule R72
leaves opcode 0 unassigned. -/
theorem allZeroWordIsNeverAWriter : Obligations.AllZeroWordIsNeverAWriter := by
  unfold Obligations.AllZeroWordIsNeverAWriter
  refine ⟨unpack_zero, fun s hwf hs h0 => ?_⟩
  obtain ⟨-, -, -, joint⟩ := hwf
  rw [State.fetch, h0, decode_eq, unpack_zero]
  apply exec_ofFields_of_not_writer
  intro holds
  have isZero : s.cfg.condOf 0 = .zero := (State.holds_own_of_memRead_eq_zero hs h0).1 holds
  exact joint (Config.condOf_eq_zero_iff.1 isZero).symm

end Sys2Proof.Machine
end

section
/-! Recognised opcodes and the writer condition (`40_decode_condition.md` rules R91, R93): an opcode is recognised
exactly where it is assigned, and a cell with a recognised opcode makes its request where its condition holds. -/

namespace Sys2Proof

/-- The two maps are inverse to each other, where OPNUM is injective. -/
theorem Config.operationOf_eq_some_iff {cfg : Config} (h : cfg.assigned.Nodup) {op : BitVec 6} {o : Operation} :
    cfg.operationOf op = some o ↔ op = cfg.opnum o := by
  constructor
  · intro recognised
    exact (Config.opnum_of_operationOf recognised).symm
  · rintro rfl
    exact Config.operationOf_opnum h o

theorem Config.operationOf_isSome_iff {cfg : Config} {op : BitVec 6} :
    (cfg.operationOf op).isSome = true ↔ op ∈ cfg.assigned := by
  rw [Option.isSome_iff_ne_none, ne_eq, Config.operationOf_eq_none, not_not]

theorem Config.mem_default_assigned_iff {op : BitVec 6} :
    op ∈ Config.default.assigned ↔ 1 ≤ op.toNat ∧ op.toNat ≤ 6 := by
  simp only [Config.assigned, Config.default, List.mem_cons, List.not_mem_nil, or_false]
  bv_omega

end Sys2Proof

namespace Sys2Proof.Machine

/-- A cell with a recognised opcode makes its operation's request where its condition holds. -/
theorem exec_ofFields_of_writer {cfg : Config} {f : Fields} {s : State} {o : Operation}
    (ho : cfg.operationOf f.op = some o) (hc : s.holds (cfg.condOf f.cc) f.ca = true) :
    exec (Instr.ofFields cfg f) s = .next (s.addRequest (s.requestFor o f.t f.s1 f.s2)) := by
  unfold Instr.ofFields
  rw [ho]
  exact exec_operation_of_holds hc o f.t f.s1 f.s2

/-- Settles O9: the maps are inverse to each other, a Word with an unassigned opcode is no writer, and the default
numbers are 1 to 6. -/
theorem recognisedOpcodes : Obligations.RecognisedOpcodes := by
  unfold Obligations.RecognisedOpcodes
  refine ⟨?_, ?_, ?_⟩
  · rintro cfg op o ⟨-, injective, -, -⟩
    exact Config.operationOf_eq_some_iff injective
  · intro s w unrecognised
    rw [decode_eq]
    exact exec_ofFields_of_not_writer fun _ => Config.operationOf_eq_none.1 unrecognised
  · intro op
    exact Config.operationOf_isSome_iff.trans Config.mem_default_assigned_iff

/-- Settles O15: the request is that of the recognised operation; where the condition holds on a cell that is no
writer, its opcode is unassigned. -/
theorem writerExactlyWhereConditionHolds : Obligations.WriterExactlyWhereConditionHolds := by
  unfold Obligations.WriterExactlyWhereConditionHolds
  intro s f writer
  rw [State.fetch, decode_eq]
  constructor
  · rintro ⟨holds, recognised⟩
    obtain ⟨o, ho⟩ := Option.isSome_iff_exists.1 recognised
    exact ⟨s.requestFor o f.t f.s1 f.s2, exec_ofFields_of_writer ho holds⟩
  · intro notWriter
    apply exec_ofFields_of_not_writer
    intro holds assigned
    exact notWriter ⟨holds, Config.operationOf_isSome_iff.2 assigned⟩

end Sys2Proof.Machine
end

section
/-! The two modes of the address calculator (`41_address.md` rules R100 to R102): one equation per mode. -/

namespace Sys2Proof.Machine

theorem State.ea_of_direct (s : State) (offset : Int) :
    s.ea ⟨false, offset⟩ = norm s.size (s.site + offset) := by
  simp [State.ea, State.direct]

/-- The pointer's Word is added to the pointer cell's own index, which is the direct address of the same offset. -/
theorem State.ea_of_indirect (s : State) (offset : Int) :
    s.ea ⟨true, offset⟩ =
      norm s.size (s.ea ⟨false, offset⟩ + s.memRead (s.ea ⟨false, offset⟩)) := by
  simp [State.ea, State.direct]

/-- Settles O12: the equation of each mode, and an effective address is always a cell. -/
theorem effectiveAddressOfBothModes : Obligations.EffectiveAddressOfBothModes := by
  unfold Obligations.EffectiveAddressOfBothModes
  intro s offset
  refine ⟨s.ea_of_direct offset, ?_, fun nonempty => ⟨State.ea_lt nonempty _, State.ea_lt nonempty _⟩⟩
  rw [State.ea_of_indirect, State.ea_of_direct]

end Sys2Proof.Machine
end

section
/-! The operations of the ALU (`42_alu.md` rules R110 to R118): what the six share is stated once for any operation,
the value each one asks for is a law of its own, and an unassigned opcode is inert. -/

namespace Sys2Proof

/-- The opcode read from an instruction's Word is the one the instruction spells; no field needs to be well formed. -/
theorem unpack_encode_op (cfg : Config) (i : Instr) : (unpack (encode cfg i)).op = (i.toFields cfg).op := by
  unfold encode pack unpack
  rw [instructionBits_natCast]
  exact packBits_op _

theorem Operation.toFields_instr_op (cfg : Config) (o : Operation) (c : Cond) (ca t s1 s2 : AddressField) :
    ((o.instr c ca t s1 s2).toFields cfg).op = cfg.opnum o := by
  cases o <;> rfl

theorem decode_of_unassigned {cfg : Config} {w : Int} (h : (unpack w).op ∉ cfg.assigned) :
    decode cfg w = inertOf (unpack w).op (cfg.condOf (unpack w).cc) (unpack w).ca (unpack w).t (unpack w).s1
      (unpack w).s2 := by
  rw [decode_eq, Instr.ofFields, Config.operationOf_eq_none.2 h]

end Sys2Proof

namespace Sys2Proof.Machine

/-! ## The bits of the bitwise functions -/

theorem testBit_aluAnd {x k : Nat} (hk : k < x) (a b : Int) :
    (aluAnd x a b).testBit k = (a.testBit k && b.testBit k) := by
  rw [aluAnd, testBit_toInt hk, BitVec.getLsbD_and, getLsbD_ofInt hk, getLsbD_ofInt hk]

/-- The complement is over all bits below the width, so below it no bit of the second operand escapes. -/
theorem testBit_aluBic {x k : Nat} (hk : k < x) (a b : Int) :
    (aluBic x a b).testBit k = (a.testBit k && !b.testBit k) := by
  rw [aluBic, testBit_toInt hk, BitVec.getLsbD_and, BitVec.getLsbD_not, getLsbD_ofInt hk, getLsbD_ofInt hk,
    decide_eq_true hk, Bool.true_and]

theorem testBit_aluOr {x k : Nat} (hk : k < x) (a b : Int) :
    (aluOr x a b).testBit k = (a.testBit k || b.testBit k) := by
  rw [aluOr, testBit_toInt hk, BitVec.getLsbD_or, getLsbD_ofInt hk, getLsbD_ofInt hk]

theorem testBit_aluXor {x k : Nat} (hk : k < x) (a b : Int) :
    (aluXor x a b).testBit k = (a.testBit k ^^ b.testBit k) := by
  rw [aluXor, testBit_toInt hk, BitVec.getLsbD_xor, getLsbD_ofInt hk, getLsbD_ofInt hk]

/-! ## What the six operations share -/

/-- Rule R110 for any operation: under its own opcode, one request of the Word `f_OP(a, b)`, of which any law of
`f_OP` may be kept. -/
theorem operation_requests_result {s : State} {c : Cond} {ca : AddressField} (hx : 24 ≤ s.cfg.xlen)
    (hc : s.holds c ca = true) (o : Operation) {t s1 s2 : AddressField} {Law : Int → Prop}
    (law : Law (aluOf o s.cfg.xlen (s.memRead (s.ea s1)) (s.memRead (s.ea s2)))) :
    (unpack (encode s.cfg (o.instr c ca t s1 s2))).op = s.cfg.opnum o ∧
      ∃ r : Int,
        exec (o.instr c ca t s1 s2) s =
          .next { s with requests := s.requests ++ [⟨s.ea t, r, s.ownerRead s.site⟩] } ∧
        inRange s.cfg.xlen r ∧ Law r := by
  refine ⟨?_, _, ?_, aluOf_inRange o (by omega) _ _, law⟩
  · rw [unpack_encode_op, Operation.toFields_instr_op]
  · rw [exec_operation_of_holds hc, State.requestFor_eq, State.addRequest]

/-! ## The operations -/

/-- Settles O17: wrapping takes a multiple of 2^XLEN away from the exact sum. -/
theorem addRequestsTheWrappedSum : Obligations.AddRequestsTheWrappedSum := by
  unfold Obligations.AddRequestsTheWrappedSum
  intro s c ca t s1 s2 hx hc
  exact operation_requests_result hx hc .add (dvd_sub_wrap _ _)

/-- Settles O19: the bits of `f_AND`. -/
theorem andRequestsTheBitwiseAnd : Obligations.AndRequestsTheBitwiseAnd := by
  unfold Obligations.AndRequestsTheBitwiseAnd
  intro s c ca t s1 s2 hx hc
  exact operation_requests_result hx hc .and fun k hk => testBit_aluAnd hk _ _

/-- Settles O20: the bits of `f_BIC`. -/
theorem bicRequestsTheBitClear : Obligations.BicRequestsTheBitClear := by
  unfold Obligations.BicRequestsTheBitClear
  intro s c ca t s1 s2 hx hc
  exact operation_requests_result hx hc .bic fun k hk => testBit_aluBic hk _ _

/-- Settles O21: the bits of `f_OR`. -/
theorem orRequestsTheBitwiseOr : Obligations.OrRequestsTheBitwiseOr := by
  unfold Obligations.OrRequestsTheBitwiseOr
  intro s c ca t s1 s2 hx hc
  exact operation_requests_result hx hc .or fun k hk => testBit_aluOr hk _ _

/-- Settles O22: the bits of `f_XOR`. -/
theorem xorRequestsTheBitwiseExclusiveOr : Obligations.XorRequestsTheBitwiseExclusiveOr := by
  unfold Obligations.XorRequestsTheBitwiseExclusiveOr
  intro s c ca t s1 s2 hx hc
  exact operation_requests_result hx hc .xor fun k hk => testBit_aluXor hk _ _

/-! ## The inert opcodes -/

/-- Settles O23: each inert meaning is the state itself, and a Word with an unassigned opcode decodes to an inert
instruction. -/
theorem inertInstructionsDoNothing : Obligations.InertInstructionsDoNothing := by
  unfold Obligations.InertInstructionsDoNothing
  refine ⟨fun s op c ca t s1 s2 => ⟨rfl, rfl, rfl, rfl, rfl⟩, fun s w unassigned => ?_⟩
  have decoded := decode_of_unassigned unassigned
  exact ⟨⟨_, _, _, _, _, decoded⟩, by rw [decoded, exec_inertOf]⟩

end Sys2Proof.Machine
end

section
/-! PROOFS. The atomic commit (`43_commit.md`): the source's touched-set algorithm keeps, visit after visit, the
memory that the writer count defines for the requests visited so far, and a step is the commit of the rules. -/

namespace Sys2Proof.Machine

/-! ## The writer count -/

theorem writerCount_ne_zero {reqs : List Request} {d : Nat} :
    writerCount reqs d ≠ 0 ↔ ∃ r ∈ reqs, r.dest = d := by
  simp [writerCount, List.countP_eq_zero]

theorem writerCount_append_singleton (reqs : List Request) (r : Request) (d : Nat) :
    writerCount (reqs ++ [r]) d = writerCount reqs d + if r.dest = d then 1 else 0 := by
  simp [writerCount, List.countP_append, List.countP_singleton]

/-- One more visit adds its destination to those visited. -/
theorem exists_dest_append_singleton (reqs : List Request) (r : Request) (d : Nat) :
    (∃ q ∈ reqs ++ [r], q.dest = d) ↔ (∃ q ∈ reqs, q.dest = d) ∨ r.dest = d := by
  simp [or_and_right, exists_or]

/-! ## The commit of a list of requests -/

/-- What a cell holds after the commit depends only on the requests that name it, in whatever order. -/
theorem load_commitMem_congr {m : Memory} (h : Memory.wf m) {qs rs : List Request} {d : Nat}
    (count : writerCount qs d = writerCount rs d) (sub : ∀ r ∈ qs, r.dest = d → r ∈ rs) :
    (commitMem qs m).load d = (commitMem rs m).load d := by
  by_cases one : writerCount qs d = 1
  · obtain ⟨r, hr, rfl⟩ := writerCount_ne_zero.mp (by omega : writerCount qs d ≠ 0)
    rw [load_commitMem_same h hr one, load_commitMem_same h (sub r hr rfl) (count ▸ one)]
  · rw [load_commitMem_other h one, load_commitMem_other h (count ▸ one)]

/-- The commit does not depend on the order of the requests. -/
theorem commitMem_perm {m : Memory} (h : Memory.wf m) {qs rs : List Request} (p : qs.Perm rs) :
    commitMem qs m = commitMem rs m :=
  Memory.ext_of_load (commitMem_wf h _) (commitMem_wf h _) fun _ =>
    load_commitMem_congr h (p.countP_eq _) fun _ hr _ => p.mem_iff.mp hr

/-- One more request changes the committed memory at its own destination only. -/
theorem commitMem_append_singleton {m : Memory} (h : Memory.wf m) (reqs : List Request) (r : Request) :
    commitMem (reqs ++ [r]) m =
      (commitMem reqs m).store r.dest ((commitMem (reqs ++ [r]) m).load r.dest) := by
  have wf := commitMem_wf h reqs
  refine Memory.ext_of_load (commitMem_wf h _) (Memory.store_wf wf _ _) fun d => ?_
  by_cases hd : d = r.dest
  · rw [hd, Memory.load_store_same wf]
  · rw [Memory.load_store_other wf _ hd]
    refine (load_commitMem_congr h ?_ fun q hq _ => List.mem_append_left _ hq).symm
    rw [writerCount_append_singleton, if_neg (Ne.symm hd), Nat.add_zero]

/-- The first request for a destination lands. -/
theorem commitMem_append_first {m : Memory} (h : Memory.wf m) {reqs : List Request} {r : Request}
    (first : ¬ ∃ q ∈ reqs, q.dest = r.dest) :
    commitMem (reqs ++ [r]) m = (commitMem reqs m).store r.dest r.cell := by
  have unnamed : writerCount reqs r.dest = 0 := not_not.mp (mt writerCount_ne_zero.mp first)
  rw [commitMem_append_singleton h, load_commitMem_same h (by simp)]
  rw [writerCount_append_singleton, unnamed, if_pos rfl]

/-- A further request for a destination brings back what it held before the generation. -/
theorem commitMem_append_further {m : Memory} (h : Memory.wf m) {reqs : List Request} {r : Request}
    (further : ∃ q ∈ reqs, q.dest = r.dest) :
    commitMem (reqs ++ [r]) m = (commitMem reqs m).store r.dest (m.load r.dest) := by
  have named := writerCount_ne_zero.mpr further
  rw [commitMem_append_singleton h, load_commitMem_other h]
  rw [writerCount_append_singleton, if_pos rfl]
  omega

/-! ## The touched-set algorithm -/

/-- A further visit of a destination reverts it. -/
theorem touch_of_mem {snapshot : Memory} {b : Memory × List Nat} {r : Request} (hr : r.dest ∈ b.2) :
    touch snapshot b r = (b.1.store r.dest (snapshot.load r.dest), b.2) := if_pos hr

/-- The first visit of a destination stores and marks it. -/
theorem touch_of_not_mem {snapshot : Memory} {b : Memory × List Nat} {r : Request} (hr : r.dest ∉ b.2) :
    touch snapshot b r = (b.1.store r.dest r.cell, r.dest :: b.2) := if_neg hr

/-- The invariant of the touched-set algorithm over the pre-step memory `m`, once the requests `reqs` have been
visited. -/
structure Visited (m : Memory) (reqs : List Request) (b : Memory × List Nat) : Prop where
  buffer_eq : b.1 = commitMem reqs m
  mem_touched : ∀ d, d ∈ b.2 ↔ ∃ r ∈ reqs, r.dest = d

theorem Visited.start (m : Memory) : Visited m [] (m, []) := ⟨rfl, by simp⟩

/-- Every visit keeps the invariant: a first visit lands, a further one reverts. -/
theorem Visited.touch {m : Memory} (h : Memory.wf m) {reqs : List Request} {b : Memory × List Nat}
    (v : Visited m reqs b) (r : Request) : Visited m (reqs ++ [r]) (touch m b r) := by
  by_cases hr : r.dest ∈ b.2
  · have further := (v.mem_touched _).mp hr
    rw [touch_of_mem hr]
    refine ⟨by rw [commitMem_append_further h further, v.buffer_eq], fun d => ?_⟩
    rw [exists_dest_append_singleton, ← v.mem_touched]
    exact ⟨.inl, fun hd => hd.elim id fun e => e ▸ hr⟩
  · have first := mt (v.mem_touched _).mpr hr
    rw [touch_of_not_mem hr]
    refine ⟨by rw [commitMem_append_first h first, v.buffer_eq], fun d => ?_⟩
    rw [exists_dest_append_singleton, ← v.mem_touched, List.mem_cons, or_comm, eq_comm]

theorem Visited.foldl_touch {m : Memory} (h : Memory.wf m) (reqs : List Request) :
    Visited m reqs (reqs.foldl (Machine.touch m) (m, [])) := by
  induction reqs using List.reverseRecOn with
  | nil => exact Visited.start m
  | append_singleton reqs r ih =>
    rw [List.foldl_concat]
    exact ih.touch h r

theorem touchedSetCommit_eq {m : Memory} (h : Memory.wf m) (reqs : List Request) :
    touchedSetCommit reqs m = commitMem reqs m := (Visited.foldl_touch h reqs).buffer_eq

/-- Settles O32: the algorithm's buffer is the commit in every visiting order, and the commit has no order. -/
theorem touchedSetGivesTheCommit : Obligations.TouchedSetGivesTheCommit := by
  unfold Obligations.TouchedSetGivesTheCommit
  intro m reqs visited h order
  have commit := commitMem_perm h order
  exact ⟨(touchedSetCommit_eq h visited).trans commit, commit⟩

/-! ## The step -/

/-- A request carries its writer's pre-step owner, whatever the width of a Word. -/
theorem State.requestOf_owner {s : State} {i : Nat} {r : Request} (hr : s.requestOf i = some r) :
    r.owner = (s.mem.load i).owner := by
  obtain ⟨_, -, rfl⟩ := Option.map_eq_some_iff.mp hr
  rfl

/-- Settles O30: the step commits the requests of the rules, and the commit goes by the number of writers. -/
theorem stepIsTheGeneration : Obligations.StepIsTheGeneration := by
  unfold Obligations.StepIsTheGeneration
  intro s pos h
  refine ⟨_, step_eq pos, rfl, rfl, rfl, rfl, rfl, fun d _ => ⟨fun none => ?_, fun i r lone hr => ?_, fun many => ?_⟩⟩
  · exact State.load_commit_of_not_lone h (by omega)
  · exact ⟨State.load_commit_of_lone h lone hr, State.requestOf_owner hr⟩
  · exact State.load_commit_of_not_lone h (by omega)

end Sys2Proof.Machine
end

section
/-! The host port (`45_host_port_and_assembler.md` rule R150 to rule R156): what one host operation does to the
parameters, the size and the counter, along every sequence of operations, and what a construction makes. -/

namespace Sys2Proof.Machine

/-! ## One host operation and sequences of them -/

/-- A step leaves the parameters and the size and adds one to the counter. -/
theorem step_frame {s t : State} (h : step s = .next t) :
    t.cfg = s.cfg ∧ t.size = s.size ∧ t.instructionCounter = s.instructionCounter + 1 := by
  rcases Nat.eq_zero_or_pos s.size with empty | pos
  · rw [step, generation, if_pos empty] at h
    cases h
  · rw [step_eq pos] at h
    cases h
    exact ⟨rfl, rfl, rfl⟩

/-- An assembly that answers, with an error or without, changes the core by writing words alone. -/
theorem performHost_assemble {text : Text} {address : Int} {owner : Owner} {s t : State} {reply : Reply}
    (h : performHost (.assemble text address owner) s = .next (reply, t)) :
    ∃ ws, t = s.writeAll address owner ws := by
  simp only [performHost, assemble] at h
  rcases assembleLines_cases (sourceLines text) address owner s with ⟨n, labels, ws, e⟩ | ⟨err, ws, e⟩ | ⟨r, e, -⟩
  · rw [e] at h
    cases h
    exact ⟨ws, rfl⟩
  · rw [e] at h
    cases h
    exact ⟨ws, rfl⟩
  · rw [e] at h
    cases h

/-- A host operation leaves the parameters and the size; STEP alone moves the counter, by one
(`10_state.md` rule R22). -/
theorem performHost_frame {op : HostOp} {s t : State} {reply : Reply} (h : performHost op s = .next (reply, t)) :
    t.cfg = s.cfg ∧ t.size = s.size ∧
      t.instructionCounter = s.instructionCounter + if op = .step then 1 else 0 := by
  cases op with
  | read | write | words | owners | ctr => cases h; exact ⟨rfl, rfl, rfl⟩
  | step =>
    simp only [performHost] at h
    split at h
    · cases h; exact step_frame ‹_›
    · cases h
    · cases h
  | assemble text address owner =>
    obtain ⟨ws, rfl⟩ := performHost_assemble h
    exact s.writeAll_frame address owner ws

/-- A sequence of host operations that completes is its first operation and then the rest. -/
theorem performAll_cons {op : HostOp} {ops : List HostOp} {s t : State} (h : performAll (op :: ops) s = .next t) :
    ∃ reply u, performHost op s = .next (reply, u) ∧ performAll ops u = .next t := by
  rw [performAll] at h
  split at h
  · exact ⟨_, _, ‹_›, h⟩
  · cases h
  · cases h

/-- Along every sequence of host operations the parameters and the size stay, and the counter counts the STEPs. -/
theorem performAll_frame {ops : List HostOp} {s t : State} (h : performAll ops s = .next t) :
    t.cfg = s.cfg ∧ t.size = s.size ∧ t.instructionCounter = s.instructionCounter + ops.count .step := by
  induction ops generalizing s with
  | nil => cases h; exact ⟨rfl, rfl, rfl⟩
  | cons op ops ih =>
    obtain ⟨reply, u, first, rest⟩ := performAll_cons h
    obtain ⟨cfg₁, size₁, counter₁⟩ := performHost_frame first
    obtain ⟨cfg₂, size₂, counter₂⟩ := ih rest
    refine ⟨cfg₂.trans cfg₁, size₂.trans size₁, ?_⟩
    rw [counter₂, counter₁, List.count_cons]
    simp only [beq_iff_eq]
    omega

/-- Settles O48: the counter is part of the frame of a sequence, and CTR returns it. -/
theorem counterCountsTheSteps : Obligations.CounterCountsTheSteps := by
  unfold Obligations.CounterCountsTheSteps
  intro ops s t h
  obtain ⟨-, -, counter⟩ := performAll_frame h
  exact ⟨counter, by rw [← counter]; rfl⟩

/-- Settles O47: a snapshot maps the indices below the size to their cells. -/
theorem snapshotsCopyTheArrays : Obligations.SnapshotsCopyTheArrays := by
  unfold Obligations.SnapshotsCopyTheArrays
  intro s _
  refine ⟨rfl, rfl, by simp [State.words], by simp [State.owners], fun d hd => ?_⟩
  have own : norm s.size (d : Int) = d := norm_of_lt hd
  constructor
  · simp [State.words, State.read, State.memRead_eq, own, hd]
  · simp [State.owners, State.ownerRead_eq, own, hd]

/-! ## Construction -/

theorem construct_zeroed (cfg : Config) {n : Nat} (h : 0 < n) :
    construct cfg n .zeroed = .ok ⟨cfg, n, [], 0, 0, []⟩ := if_neg (by omega)

theorem construct_randomized (cfg : Config) {n : Nat} (h : 0 < n) (rng : RandomSource n) :
    construct cfg n (.randomized rng) = .ok ⟨cfg, n, randomCells cfg.xlen rng.word rng.owner n, 0, 0, []⟩ :=
  if_neg (by omega)

/-- Settles O44: the zeroed memory lists no cell, the randomized one reads its draws, and the frame of a sequence
of operations keeps the size and the parameters. -/
theorem constructMakesTheResetState : Obligations.ConstructMakesTheResetState := by
  unfold Obligations.ConstructMakesTheResetState
  refine ⟨fun cfg size fill h => if_pos h, fun cfg n h => ?_, fun cfg n rng h range wide => ?_,
    fun ops s t h => ?_⟩
  · exact ⟨_, construct_zeroed cfg h, rfl, rfl, rfl, fun _ _ => rfl, Owner.black, fun _ _ => rfl⟩
  · obtain ⟨-, loads, -⟩ := randomCells_spec cfg.xlen rng.word rng.owner n
    have cell (d : Nat) (hd : d < n) :
        (randomCells cfg.xlen rng.word rng.owner n).load (norm n d) = ⟨rng.word d, rng.owner d⟩ := by
      rw [norm_of_lt hd, loads, if_pos hd, wrap_of_inRange (by omega) (range d hd)]
    refine ⟨_, construct_randomized cfg h rng, rfl, rfl, rfl, fun d hd => ?_, fun d hd e he same => ?_⟩
    · exact ⟨congrArg Cell.word (cell d hd), congrArg Cell.owner (cell d hd)⟩
    · refine rng.distinct d hd e he ?_
      calc rng.owner d = _ := (congrArg Cell.owner (cell d hd)).symm
        _ = _ := same
        _ = rng.owner e := congrArg Cell.owner (cell e he)
  · obtain ⟨hcfg, hsize, -⟩ := performAll_frame h
    exact ⟨hsize, hcfg⟩

end Sys2Proof.Machine
end

section
/-! The assembler (`45_host_port_and_assembler.md` rule R164 to rule R172): the range check of offsets, what a call
leaves in the core where it succeeds and where it fails in pass 2, and the source's example. -/

namespace Sys2Proof.Machine

/-- Settles O53: once all four operands resolve, only the check of their offsets is left. -/
theorem offsetsAreRangeChecked : Obligations.OffsetsAreRangeChecked := by
  unfold Obligations.OffsetsAreRangeChecked
  intro cfg table pos o c ca t s1 s2 fca ft f1 f2 hca ht h1 h2
  rw [Statement.word, hca, ht, h1, h2]
  rfl

/-! ## From a call to its pass 2 -/

/-- Where pass 1 binds the labels, a call that is not refused for its spelling is its pass 2. -/
theorem assembleLines_eq_emitLines {lines : List SourceLine} {table : LabelTable}
    (bound : bindLabels lines 0 [] = some table) {address : Int} {owner : Owner} {s : State}
    (h : assembleLines lines address owner s ≠ .refused .unstatedLexeme) :
    assembleLines lines address owner s = emitLines table address owner lines 0 s := by
  unfold assembleLines at h ⊢
  rw [bound] at h ⊢
  exact if_neg fun openLabel => h (if_pos openLabel)

/-- Only a text that pass 1 accepts assembles. -/
theorem bindLabels_of_done {lines : List SourceLine} {address : Int} {owner : Owner} {s t : State} {n : Nat}
    {labels : LabelTable} (h : assembleLines lines address owner s = .done n labels t) :
    ∃ table, bindLabels lines 0 [] = some table := by
  unfold assembleLines at h
  split at h
  · exact ⟨_, ‹_›⟩
  · cases h

/-- Settles O57: a call that succeeds is a pass 2 that comes to its end. -/
theorem assemblyWritesItsWords : Obligations.AssemblyWritesItsWords := by
  unfold Obligations.AssemblyWritesItsWords
  intro lines address owner s t n labels h
  obtain ⟨table, bound⟩ := bindLabels_of_done h
  rw [assembleLines_eq_emitLines bound (by rw [h]; nofun)] at h
  obtain ⟨ws, each, ends⟩ := emitLines_eq table address owner lines 0 s
  simp only [Nat.cast_zero, add_zero, zero_add] at each ends
  rcases ends with ⟨all, done⟩ | ⟨_, _, -, -, failed⟩ | ⟨_, _, -, -, refused⟩
  · cases h.symm.trans done
    exact ⟨all, table, ws, bound, rfl, rfl, rfl, each⟩
  · cases h.symm.trans failed
  · cases h.symm.trans refused

/-- Settles O58: a call that fails after pass 1 is a pass 2 that stops at its first line with an error. -/
theorem failedAssemblyKeepsEarlierWords : Obligations.FailedAssemblyKeepsEarlierWords := by
  unfold Obligations.FailedAssemblyKeepsEarlierWords
  intro lines address owner s t e table bound h
  rw [assembleLines_eq_emitLines bound (by rw [h]; nofun)] at h
  obtain ⟨ws, each, ends⟩ := emitLines_eq table address owner lines 0 s
  simp only [Nat.cast_zero, add_zero, zero_add] at each ends
  rcases ends with ⟨-, done⟩ | ⟨body, _, line, error, failed⟩ | ⟨_, _, -, -, refused⟩
  · cases h.symm.trans done
  · cases h.symm.trans failed
    obtain ⟨before, -⟩ := List.getElem?_eq_some_iff.mp line
    exact ⟨ws, rfl, before, each, body, line, error⟩
  · cases h.symm.trans refused

/-! ## The source's example -/

/-- Pass 2 at an emitting line that gives a word writes it and goes on. -/
theorem emitLines_cons_of_ok {table : LabelTable} {address : Int} {owner : Owner} {l : SourceLine}
    {ls : List SourceLine} {pos : Nat} {s : State} {w : Int} (emits : l.emits = true)
    (word : lineWord s.cfg table pos l.body = .ok w) :
    emitLines table address owner (l :: ls) pos s =
      emitLines table address owner ls (pos + 1) (s.write (address + pos) w owner) := by
  rw [emitLines, if_pos emits, word]

/-- The lines of the source's example (`45_host_port_and_assembler.md` rule R172). -/
def exampleLines : List SourceLine := [⟨some ['a'], "ADD a a a".toList⟩, ⟨none, "ADD a a a".toList⟩]

theorem sourceLines_example : sourceLines "a: ADD a a a\nADD a a a".toList = exampleLines := by decide

theorem bindLabels_example : bindLabels exampleLines 0 [] = some [(['a'], 0)] := by decide

theorem no_openLabel_example : exampleLines.any SourceLine.openLabel = false := by decide

theorem lineWord_example :
    lineWord Config.default [(['a'], 0)] 0 "ADD a a a".toList = .ok 0x070000 ∧
      lineWord Config.default [(['a'], 0)] 1 "ADD a a a".toList = .ok 0x070777 := by decide

/-- The example writes its two words, in any core with the default parameters and at any address. -/
theorem assemble_example {s : State} (hcfg : s.cfg = Config.default) (address : Int) (owner : Owner) :
    assemble "a: ADD a a a\nADD a a a".toList address owner s =
      .done 2 (rebase s.size address [(['a'], 0)])
        ((s.write address 0x070000 owner).write (address + 1) 0x070777 owner) := by
  obtain ⟨first, second⟩ := lineWord_example
  rw [← hcfg] at first second
  rw [assemble, sourceLines_example, assembleLines, bindLabels_example]
  simp only [no_openLabel_example, Bool.false_eq_true, if_false]
  rw [exampleLines, emitLines_cons_of_ok (by decide) first, emitLines_cons_of_ok (by decide) second, emitLines]
  simp

/-- Settles O60: the two words stand in cells 10 and 11, and no other cell is written. -/
theorem twoLineExampleAssembles : Obligations.TwoLineExampleAssembles := by
  unfold Obligations.TwoLineExampleAssembles
  intro s owner h hcfg hsize
  have labels : rebase s.size 10 [(['a'], 0)] = [(['a'], 10)] := by rw [hsize]; decide
  have ten : norm s.size 10 = 10 := by rw [hsize]; decide
  have eleven : norm s.size 11 = 11 := by rw [hsize]; decide
  have words : wrap s.cfg.xlen 0x070000 = 0x070000 ∧ wrap s.cfg.xlen 0x070777 = 0x070777 := by
    rw [hcfg]; decide
  let t := (s.write 10 0x070000 owner).write 11 0x070777 owner
  have cells (d : Nat) : t.mem.load d =
      if d = 11 then ⟨0x070777, owner⟩ else if d = 10 then ⟨0x070000, owner⟩ else s.mem.load d := by
    rw [State.load_write (State.write_inv h _ _ _), State.load_write h, State.write_size, State.write_cfg, ten,
      eleven, words.1, words.2]
  have first : t.cellAt 10 = ⟨0x070000, owner⟩ := (congrArg t.mem.load ten).trans (cells 10)
  have second : t.cellAt 11 = ⟨0x070777, owner⟩ := (congrArg t.mem.load eleven).trans (cells 11)
  refine ⟨t, by rw [assemble_example hcfg, labels]; rfl, congrArg Cell.word first, congrArg Cell.word second,
    congrArg Cell.owner first, congrArg Cell.owner second, fun d _ other₁ other₂ => ?_⟩
  rw [cells, if_neg other₂, if_neg other₁]

end Sys2Proof.Machine
end

section
/-! The codec both ways (`30_encoding.md` rule R66 to rule R72): fields and patterns, then instructions and Words,
for every choice of the parameters. -/

namespace Sys2Proof

/-! ## Fields and patterns -/

theorem unpackBits_packBits {f : Fields} (h : f.wf) : unpackBits (packBits f) = f := by
  obtain ⟨ca, t, s1, s2⟩ := h
  rw [unpackBits, packBits_op, packBits_cc, packBits_ca, packBits_t, packBits_s1, packBits_s2,
    decodeField_encodeField ca, decodeField_encodeField t, decodeField_encodeField s1, decodeField_encodeField s2]

theorem packBits_unpackBits (u : BitVec 24) : packBits (unpackBits u) = u := by
  apply BitVec.eq_of_toNat_eq
  rw [packBits_toNat]
  simp only [unpackBits, encodeField_decodeField, BitVec.extractLsb'_toNat, Nat.shiftRight_eq_div_pow]
  omega

theorem unpackBits_wf (u : BitVec 24) : (unpackBits u).wf :=
  ⟨decodeField_wf _, decodeField_wf _, decodeField_wf _, decodeField_wf _⟩

/-- Reading a packed Word is reading its pattern. -/
theorem unpack_pack_eq (f : Fields) : unpack (pack f) = unpackBits (packBits f) := by
  rw [unpack, pack, instructionBits_natCast]

theorem unpack_pack {f : Fields} (h : f.wf) : unpack (pack f) = f := by
  rw [unpack_pack_eq, unpackBits_packBits h]

theorem pack_unpack (w : Int) : pack (unpack w) = w % 2 ^ 24 := by
  rw [pack, unpack, packBits_unpackBits, instructionBits_toNat]

/-! ## Instructions and fields -/

/-- Four distinct codes of two bits are all of them, so every code is some condition's number. -/
theorem Config.ccnum_condOf {cfg : Config} (h : cfg.codes.Nodup) (cc : BitVec 2) :
    cfg.ccnum (cfg.condOf cc) = cc := by
  unfold Config.condOf
  split_ifs with zero positive negative
  · exact zero.symm
  · exact positive.symm
  · exact negative.symm
  · simp only [Config.codes, List.nodup_cons, List.mem_cons, List.not_mem_nil, not_or, or_false] at h
    obtain ⟨⟨zp, zn, zx⟩, ⟨pn, px⟩, nx, -⟩ := h
    show cfg.ccNonZero = cc
    bv_omega

theorem Operation.toFields_instr (cfg : Config) (o : Operation) (c : Cond) (ca t s1 s2 : AddressField) :
    (o.instr c ca t s1 s2).toFields cfg = ⟨cfg.opnum o, cfg.ccnum c, ca, t, s1, s2⟩ := by
  cases o <;> rfl

theorem Operation.instr_wf (cfg : Config) (o : Operation) (c : Cond) {ca t s1 s2 : AddressField}
    (h : operandsWf ca t s1 s2) : (o.instr c ca t s1 s2).wf cfg = true := by
  cases o <;> exact decide_eq_true h

theorem inertOf_toFields (cfg : Config) (op : BitVec 6) (c : Cond) (ca t s1 s2 : AddressField) :
    (inertOf op c ca t s1 s2).toFields cfg = ⟨op, cfg.ccnum c, ca, t, s1, s2⟩ := by
  unfold inertOf
  split_ifs with h0
  · have : op = 0 := BitVec.eq_of_toNat_eq h0
    rw [this]
    rfl
  all_goals rfl

theorem inertOf_wf {cfg : Config} {op : BitVec 6} (unassigned : op ∉ cfg.assigned) (c : Cond)
    {ca t s1 s2 : AddressField} (h : operandsWf ca t s1 s2) : (inertOf op c ca t s1 s2).wf cfg = true := by
  unfold inertOf
  split_ifs with h0 h7 h15 h31
  · have : op = 0 := BitVec.eq_of_toNat_eq h0
    exact decide_eq_true ⟨this ▸ unassigned, h⟩
  all_goals exact decide_eq_true ⟨⟨by omega, by omega, unassigned⟩, h⟩

/-- The instruction read from the fields of an operation, under the maps that spelled it. -/
theorem Instr.ofFields_opnum {cfg : Config} (ops : cfg.assigned.Nodup) (codes : cfg.codes.Nodup) (o : Operation)
    (c : Cond) (ca t s1 s2 : AddressField) :
    Instr.ofFields cfg ⟨cfg.opnum o, cfg.ccnum c, ca, t, s1, s2⟩ = o.instr c ca t s1 s2 := by
  simp only [Instr.ofFields, Config.operationOf_opnum ops, Config.condOf_ccnum codes]

theorem Instr.ofFields_of_unassigned {cfg : Config} {f : Fields} (unassigned : f.op ∉ cfg.assigned) :
    Instr.ofFields cfg f = inertOf f.op (cfg.condOf f.cc) f.ca f.t f.s1 f.s2 := by
  rw [Instr.ofFields, Config.operationOf_eq_none.2 unassigned]

/-- What an instruction with an encoding is: an operation, or the inert instruction of an unassigned opcode. -/
theorem Instr.cases_of_wf {cfg : Config} {i : Instr} (h : i.wf cfg = true) :
    ∃ c ca t s1 s2, operandsWf ca t s1 s2 ∧
      ((∃ o : Operation, i = o.instr c ca t s1 s2) ∨
        ∃ op, op ∉ cfg.assigned ∧ i = inertOf op c ca t s1 s2) := by
  cases i with
  | add c ca t s1 s2 => exact ⟨c, ca, t, s1, s2, of_decide_eq_true h, .inl ⟨.add, rfl⟩⟩
  | sub c ca t s1 s2 => exact ⟨c, ca, t, s1, s2, of_decide_eq_true h, .inl ⟨.sub, rfl⟩⟩
  | and c ca t s1 s2 => exact ⟨c, ca, t, s1, s2, of_decide_eq_true h, .inl ⟨.and, rfl⟩⟩
  | bic c ca t s1 s2 => exact ⟨c, ca, t, s1, s2, of_decide_eq_true h, .inl ⟨.bic, rfl⟩⟩
  | or c ca t s1 s2 => exact ⟨c, ca, t, s1, s2, of_decide_eq_true h, .inl ⟨.or, rfl⟩⟩
  | xor c ca t s1 s2 => exact ⟨c, ca, t, s1, s2, of_decide_eq_true h, .inl ⟨.xor, rfl⟩⟩
  | inertOp0 c ca t s1 s2 =>
    obtain ⟨unassigned, operands⟩ := of_decide_eq_true h
    exact ⟨c, ca, t, s1, s2, operands, .inr ⟨0, unassigned, rfl⟩⟩
  | inertOp7 op c ca t s1 s2 =>
    obtain ⟨⟨lo, hi, unassigned⟩, operands⟩ := of_decide_eq_true h
    refine ⟨c, ca, t, s1, s2, operands, .inr ⟨op, unassigned, ?_⟩⟩
    rw [inertOf, if_neg (by omega), if_pos hi]
  | inertOp8To15 op c ca t s1 s2 =>
    obtain ⟨⟨lo, hi, unassigned⟩, operands⟩ := of_decide_eq_true h
    refine ⟨c, ca, t, s1, s2, operands, .inr ⟨op, unassigned, ?_⟩⟩
    rw [inertOf, if_neg (by omega), if_neg (by omega), if_pos hi]
  | inertOp16To31 op c ca t s1 s2 =>
    obtain ⟨⟨lo, hi, unassigned⟩, operands⟩ := of_decide_eq_true h
    refine ⟨c, ca, t, s1, s2, operands, .inr ⟨op, unassigned, ?_⟩⟩
    rw [inertOf, if_neg (by omega), if_neg (by omega), if_neg (by omega), if_pos hi]
  | inertOp32To63 op c ca t s1 s2 =>
    obtain ⟨⟨lo, -, unassigned⟩, operands⟩ := of_decide_eq_true h
    refine ⟨c, ca, t, s1, s2, operands, .inr ⟨op, unassigned, ?_⟩⟩
    rw [inertOf, if_neg (by omega), if_neg (by omega), if_neg (by omega), if_neg (by omega)]

/-- An instruction with an encoding has fields with one, and they are read as the instruction. -/
theorem Instr.toFields_spec {cfg : Config} (hcfg : cfg.wf) {i : Instr} (h : i.wf cfg = true) :
    (i.toFields cfg).wf ∧ Instr.ofFields cfg (i.toFields cfg) = i := by
  obtain ⟨-, ops, codes, -⟩ := hcfg
  obtain ⟨c, ca, t, s1, s2, operands, ⟨o, rfl⟩ | ⟨op, unassigned, rfl⟩⟩ := Instr.cases_of_wf h
  · rw [Operation.toFields_instr]
    exact ⟨operands, Instr.ofFields_opnum ops codes o c ca t s1 s2⟩
  · rw [inertOf_toFields, Instr.ofFields_of_unassigned unassigned, Config.condOf_ccnum codes]
    exact ⟨operands, rfl⟩

/-- Fields with an encoding are read as an instruction with one, which has those fields. -/
theorem Instr.ofFields_spec {cfg : Config} (hcfg : cfg.wf) {f : Fields} (h : f.wf) :
    (Instr.ofFields cfg f).wf cfg = true ∧ (Instr.ofFields cfg f).toFields cfg = f := by
  obtain ⟨-, -, codes, -⟩ := hcfg
  cases ho : cfg.operationOf f.op with
  | some o =>
    simp only [Instr.ofFields, ho, Operation.toFields_instr, Config.opnum_of_operationOf ho,
      Config.ccnum_condOf codes, and_true]
    exact Operation.instr_wf cfg o _ h
  | none =>
    have unassigned := Config.operationOf_eq_none.1 ho
    rw [Instr.ofFields_of_unassigned unassigned, inertOf_toFields, Config.ccnum_condOf codes]
    exact ⟨inertOf_wf unassigned _ h, rfl⟩

/-- Settles O6: the fields of a Word survive packing, and under the maps that spelled them they are read as the
instruction. -/
theorem decodeOfEncode : Obligations.DecodeOfEncode := by
  unfold Obligations.DecodeOfEncode
  intro cfg i hcfg h
  obtain ⟨fields, back⟩ := Instr.toFields_spec hcfg h
  rw [decode_eq, encode, unpack_pack fields, back]

/-- Settles O7: every pattern has fields with an encoding, and packing them gives the pattern. -/
theorem encodeOfDecode : Obligations.EncodeOfDecode := by
  unfold Obligations.EncodeOfDecode
  intro cfg u hcfg
  obtain ⟨wf, back⟩ := Instr.ofFields_spec hcfg (unpackBits_wf u)
  exact ⟨wf, by rw [encodeBits, decodeBits, back, packBits_unpackBits]⟩

/-! ## The codec as arithmetic -/

/-- Settles O1: both round trips, and the pattern of given fields is the one they pack to. -/
theorem codecLaws : Obligations.CodecLaws := by
  unfold Obligations.CodecLaws
  refine ⟨fun f h => unpack_pack h, pack_unpack, fun w => ?_, unpackBits_wf, fun f h => ?_⟩
  · rw [pack_unpack]
    omega
  · refine ⟨packBits f, unpackBits_packBits h, fun v hv => ?_⟩
    rw [← hv, packBits_unpackBits]

/-- Settles O2: a packed pattern is the sum of its parts, and each field's four bits are its code. -/
theorem packIsTheSumOfItsParts : Obligations.PackIsTheSumOfItsParts := by
  unfold Obligations.PackIsTheSumOfItsParts
  intro f h enc
  obtain ⟨ca, t, s1, s2⟩ := h
  have below := (packBits f).isLt
  refine ⟨?_, by rw [pack]; omega, by rw [pack]; omega⟩
  rw [pack, packBits_toNat]
  push_cast
  rw [encodeField_toNat ca, encodeField_toNat t, encodeField_toNat s1, encodeField_toNat s2]

/-- A slice of the 24 bits of a Word, by division and remainder of the Word. -/
theorem instructionBits_slice (w : Int) {lo n : Nat} (h : lo + n ≤ 24) :
    (((instructionBits w).extractLsb' lo n).toNat : Int) = w / 2 ^ lo % 2 ^ n := by
  rw [BitVec.extractLsb'_toNat, Nat.shiftRight_eq_div_pow]
  push_cast
  rw [instructionBits_toNat]
  have split : (2 : Int) ^ 24 = 2 ^ lo * (2 ^ n * 2 ^ (24 - (lo + n))) := by
    rw [← mul_assoc, ← pow_add, ← pow_add, Nat.add_sub_of_le h]
  have whole : w = w % 2 ^ 24 + 2 ^ lo * (2 ^ n * (2 ^ (24 - (lo + n)) * (w / 2 ^ 24))) := by
    calc w = w % 2 ^ 24 + 2 ^ 24 * (w / 2 ^ 24) := (Int.emod_add_mul_ediv w _).symm
      _ = _ := by rw [split]; ring
  conv_rhs => rw [whole, Int.add_mul_ediv_left _ _ (by positivity), Int.add_mul_emod_self_left]

/-- An address field of the 24 bits of a Word, by division and remainder of the Word. -/
theorem decodeField_slice (w : Int) {lo : Nat} (h : lo + 4 ≤ 24) :
    ((decodeField ((instructionBits w).extractLsb' lo 4)).indirect = true ↔ w / (8 * 2 ^ lo) % 2 = 1) ∧
      (decodeField ((instructionBits w).extractLsb' lo 4)).offset =
        if w / 2 ^ lo % 8 ≥ 4 then w / 2 ^ lo % 8 - 8 else w / 2 ^ lo % 8 := by
  obtain ⟨flag, offset⟩ := decodeField_arith ((instructionBits w).extractLsb' lo 4)
  have slice := instructionBits_slice w h
  have bit3 : w / (8 * 2 ^ lo) = w / 2 ^ lo / 8 := by rw [mul_comm, Int.ediv_ediv_of_nonneg (by positivity)]
  have low : w / 2 ^ lo % 2 ^ 4 % 8 = w / 2 ^ lo % 8 := by omega
  rw [offset, slice, low, flag, bit3]
  exact ⟨by omega, rfl⟩

/-- Settles O3: each field is a slice of the Word, and the slices are of the Word modulo 2^24. -/
theorem unpackReadsTheFieldPositions : Obligations.UnpackReadsTheFieldPositions := by
  unfold Obligations.UnpackReadsTheFieldPositions
  constructor
  · intro w field
    exact ⟨instructionBits_slice w (lo := 18) (n := 6) (by omega),
      instructionBits_slice w (lo := 16) (n := 2) (by omega), decodeField_slice w (lo := 12) (by omega),
      decodeField_slice w (lo := 8) (by omega), decodeField_slice w (lo := 4) (by omega),
      decodeField_slice w (lo := 0) (by omega)⟩
  · intro v w h
    have bits : instructionBits v = instructionBits w := by
      apply BitVec.eq_of_toNat_eq
      have hv := instructionBits_toNat v
      have hw := instructionBits_toNat w
      omega
    rw [unpack, unpack, bits]

/-- Settles O5: every row is evaluated. -/
theorem addressFieldTable : Obligations.AddressFieldTable := by
  unfold Obligations.AddressFieldTable
  decide

/-- Settles O10: every word is evaluated. -/
theorem writtenOutWordsDecode : Obligations.WrittenOutWordsDecode := by
  unfold Obligations.WrittenOutWordsDecode
  decide

end Sys2Proof

namespace Sys2Proof.Machine

/-! ## The opcode table -/

/-- The rows exclude each other: two of them that agree on the bits both masks keep are one. -/
theorem opcodeTable_exclusive : ∀ p ∈ opcodeTable, ∀ q ∈ opcodeTable,
    p.2.1 &&& q.2.2 = q.2.1 &&& p.2.2 → p = q := by decide

theorem rowOf_mem_opcodeTable (i : Instr) : rowOf i ∈ opcodeTable := by
  cases i <;> simp [rowOf, opcodeTable]

/-- A pattern spells at most one row. -/
theorem eq_of_spells {u : BitVec 24} {p q : String × BitVec 24 × BitVec 24} (hp : p ∈ opcodeTable)
    (hq : q ∈ opcodeTable) (sp : spells u p = true) (sq : spells u q = true) : p = q := by
  have mp : u &&& p.2.2 = p.2.1 := of_decide_eq_true sp
  have mq : u &&& q.2.2 = q.2.1 := of_decide_eq_true sq
  refine opcodeTable_exclusive p hp q hq ?_
  rw [← mp, ← mq, BitVec.and_assoc, BitVec.and_assoc, BitVec.and_comm p.2.2]

/-- With the default maps the Word of an instruction with an encoding spells the instruction's row. -/
theorem spells_rowOf {i : Instr} (h : i.wf Config.default = true) :
    spells (encodeBits Config.default i) (rowOf i) = true := by
  cases i with
  | add c ca t s1 s2 => exact Laws.TableRow.add c ca t s1 s2 h
  | sub c ca t s1 s2 => exact Laws.TableRow.sub c ca t s1 s2 h
  | and c ca t s1 s2 => exact Laws.TableRow.and c ca t s1 s2 h
  | bic c ca t s1 s2 => exact Laws.TableRow.bic c ca t s1 s2 h
  | or c ca t s1 s2 => exact Laws.TableRow.or c ca t s1 s2 h
  | xor c ca t s1 s2 => exact Laws.TableRow.xor c ca t s1 s2 h
  | inertOp0 c ca t s1 s2 => exact Laws.TableRow.inertOp0 c ca t s1 s2 h
  | inertOp7 op c ca t s1 s2 => exact Laws.TableRow.inertOp7 op c ca t s1 s2 h
  | inertOp8To15 op c ca t s1 s2 => exact Laws.TableRow.inertOp8To15 op c ca t s1 s2 h
  | inertOp16To31 op c ca t s1 s2 => exact Laws.TableRow.inertOp16To31 op c ca t s1 s2 h
  | inertOp32To63 op c ca t s1 s2 => exact Laws.TableRow.inertOp32To63 op c ca t s1 s2 h

/-- Settles O8: a pattern is the Word of the instruction it decodes to, so it spells that row, and no other. -/
theorem everyPatternSpellsItsOwnRowOnly : Obligations.EveryPatternSpellsItsOwnRowOnly := by
  unfold Obligations.EveryPatternSpellsItsOwnRowOnly
  intro u
  obtain ⟨wf, back⟩ := encodeOfDecode Config.default u (by decide)
  have own := spells_rowOf wf
  rw [back] at own
  have listed := rowOf_mem_opcodeTable (decodeBits Config.default u)
  have distinct : opcodeTable.Nodup := by decide
  refine List.perm_singleton.mp ((List.perm_ext_iff_of_nodup (distinct.filter _) (List.nodup_singleton _)).mpr ?_)
  intro row
  rw [List.mem_filter, List.mem_singleton]
  constructor
  · rintro ⟨hrow, spelled⟩
    exact eq_of_spells hrow listed spelled own
  · rintro rfl
    exact ⟨listed, own⟩

end Sys2Proof.Machine
end

section
/-! One instruction (`41_address.md`, `40_decode_condition.md`, `42_alu.md`): corners of the address calculator, what
the conditions test, the frame of every instruction, and the results that equal sources and data Words give. -/

namespace Sys2Proof.Machine

/-! ## Addresses -/

/-- A summand may be reduced modulo the size before the sum is. -/
theorem norm_add_norm {n : Nat} (h : 0 < n) (y z : Int) : norm n (y + norm n z) = norm n (y + z) := by
  apply norm_congr
  rw [norm_cast h, Int.add_emod_emod]

theorem norm_norm_add {n : Nat} (h : 0 < n) (y z : Int) : norm n (norm n y + z) = norm n (y + z) := by
  rw [add_comm, norm_add_norm h, add_comm]

/-- Settles O13: every corner is an equation of the two modes, taken modulo the size. -/
theorem addressCorners : Obligations.AddressCorners := by
  unfold Obligations.AddressCorners
  intro s offset nonempty
  have four (a b : Int) (h : a % 4 = b % 4) (size : s.size = 4) : s.ea (.direct a) = s.ea (.direct b) := by
    rw [AddressField.direct, AddressField.direct, State.ea_of_direct, State.ea_of_direct]
    apply norm_congr
    rw [size]
    omega
  refine ⟨?_, fun one => ?_, fun size => ⟨four _ _ (by decide) size, four _ _ (by decide) size⟩, fun zero => ?_,
    fun inside => ?_⟩
  · intro p
    rw [State.ea_of_indirect, State.ea_of_direct, norm_add_norm nonempty]
  · exact ⟨Nat.lt_one_iff.1 (one ▸ State.ea_lt nonempty _), Nat.lt_one_iff.1 (one ▸ State.ea_lt nonempty _)⟩
  · rw [State.ea_of_indirect, State.ea_of_direct, State.memRead_norm, zero, add_zero, norm_norm]
  · rw [AddressField.pointer, State.ea_of_indirect, State.ea_of_direct, add_zero, norm_of_lt inside]

/-! ## Conditions -/

/-- Settles O14: each test is the comparison its name says, of the operand at the condition-address. -/
theorem conditionTests : Obligations.ConditionTests := by
  unfold Obligations.ConditionTests
  intro s ca
  exact ⟨decide_eq_true_iff, decide_eq_true_iff, decide_eq_true_iff, decide_eq_true_iff⟩

theorem exec_operation_of_not_holds {s : State} {c : Cond} {ca : AddressField} (h : s.holds c ca = false)
    (o : Operation) (t s1 s2 : AddressField) : exec (o.instr c ca t s1 s2) s = .next s := by
  rw [exec_operation, h]
  rfl

/-- Settles O16: an operation asks for nothing where its condition fails. -/
theorem failedConditionMakesNoRequest : Obligations.FailedConditionMakesNoRequest := by
  unfold Obligations.FailedConditionMakesNoRequest
  intro s c ca t s1 s2 h
  have fails (o : Operation) := exec_operation_of_not_holds h o t s1 s2
  exact ⟨fails .add, fails .sub, fails .and, fails .bic, fails .or, fails .xor⟩

/-- The default condition tests the executing cell's own Word. -/
theorem State.holds_own {s : State} (h : s.site < s.size) (c : Cond) :
    s.holds c (.direct 0) = condTest c (s.memRead s.site) := by
  rw [State.holds, State.operand_own h, State.memRead_eq, norm_of_lt h]

/-- With the default maps no operation has opcode 0, so its Word is not 0. -/
theorem encode_default_ne_zero (o : Operation) (c : Cond) (ca t s1 s2 : AddressField) :
    encode Config.default (o.instr c ca t s1 s2) ≠ 0 := by
  intro zero
  have op := unpack_encode_op Config.default (o.instr c ca t s1 s2)
  rw [zero, unpack_zero, Operation.toFields_instr_op] at op
  cases o <;> exact absurd op (by decide)

/-- Settles O28: the Word of a packed instruction is not 0, and the default condition tests that Word. -/
theorem defaultConditionHoldsOnPackedInstructions : Obligations.DefaultConditionHoldsOnPackedInstructions := by
  unfold Obligations.DefaultConditionHoldsOnPackedInstructions
  intro s o c ca t s1 s2 hcfg inside holdsWord
  have nonzero : s.memRead s.site ≠ 0 := by
    rw [holdsWord, hcfg]
    exact encode_default_ne_zero o c ca t s1 s2
  rw [State.holds_own inside, State.holds_own inside]
  exact ⟨decide_eq_true nonzero, decide_eq_false nonzero⟩

/-! ## The frame of an instruction -/

theorem targetOf_instr (o : Operation) (c : Cond) (ca t s1 s2 : AddressField) :
    targetOf (o.instr c ca t s1 s2) = t := by
  cases o <;> rfl

/-- Settles O24: an instruction answers the state itself or the state with one request for its target. -/
theorem instructionFrame : Obligations.InstructionFrame := by
  unfold Obligations.InstructionFrame
  intro i s
  rcases exec_cases i s with same | ⟨o, c, ca, t, s1, s2, rfl, -, asks⟩
  · exact ⟨s, same, rfl, rfl, rfl, rfl, fun _ => ⟨rfl, rfl⟩, .inl rfl⟩
  · rw [targetOf_instr]
    exact ⟨_, asks, rfl, rfl, rfl, rfl, fun _ => ⟨rfl, rfl⟩,
      .inr ⟨_, congrArg (s.requests ++ [·]) (s.requestFor_eq o t s1 s2)⟩⟩

/-! ## Results -/

/-- Settles O18: wrapping takes a multiple of 2^XLEN away from the exact difference. -/
theorem subRequestsTheWrappedDifference : Obligations.SubRequestsTheWrappedDifference := by
  unfold Obligations.SubRequestsTheWrappedDifference
  intro s c ca t s1 s2 hx hc
  exact operation_requests_result hx hc .sub (dvd_sub_wrap _ _)

theorem aluSub_self (x : Nat) (a : Int) : aluSub x a a = 0 := by
  rw [aluSub, sub_self, wrap, Int.zero_bmod]

theorem aluBic_self (x : Nat) (a : Int) : aluBic x a a = 0 := by
  rw [aluBic, BitVec.and_not_self]
  exact BitVec.toInt_zero

theorem aluXor_self (x : Nat) (a : Int) : aluXor x a a = 0 := by
  rw [aluXor, BitVec.xor_self, BitVec.toInt_zero]

theorem aluAnd_self {x : Nat} (h : 1 ≤ x) {a : Int} (ha : inRange x a) : aluAnd x a a = a := by
  rw [aluAnd, BitVec.and_self, toInt_ofInt_of_inRange h ha]

theorem aluOr_self {x : Nat} (h : 1 ≤ x) {a : Int} (ha : inRange x a) : aluOr x a a = a := by
  rw [aluOr, BitVec.or_self, toInt_ofInt_of_inRange h ha]

/-- Settles O25: each function on two equal Words. -/
theorem equalSources : Obligations.EqualSources := by
  unfold Obligations.EqualSources
  intro s c ca t f hx range hc ask
  have wide : 1 ≤ s.cfg.xlen := by omega
  have asks (o : Operation) {v : Int} (h : aluOf o s.cfg.xlen (s.memRead (s.ea f)) (s.memRead (s.ea f)) = v) :
      exec (o.instr c ca t f f) s = ask v := by
    rw [exec_operation_of_holds hc, State.requestFor_eq, h, State.addRequest]
  exact ⟨asks .sub (aluSub_self _ _), asks .bic (aluBic_self _ _), asks .xor (aluXor_self _ _),
    asks .and (aluAnd_self wide (range _)), asks .or (aluOr_self wide (range _)),
    asks .add (by rw [aluOf, aluAdd, two_mul])⟩

/-! ## Data Words -/

/-- The opcode of a Word, by division and remainder. -/
theorem unpack_op_toNat (w : Int) : ((unpack w).op.toNat : Int) = w / 2 ^ 18 % 64 :=
  instructionBits_slice w (lo := 18) (n := 6) (by omega)

/-- Settles O27: with the default maps an opcode of 0 or from 7 on is unassigned, and small values have one. -/
theorem smallDataIsInert : Obligations.SmallDataIsInert := by
  unfold Obligations.SmallDataIsInert
  intro s w hcfg
  have inert (h : w / 2 ^ 18 % 64 = 0 ∨ 7 ≤ w / 2 ^ 18 % 64) : exec (decode s.cfg w) s = .next s := by
    have unassigned : (unpack w).op ∉ s.cfg.assigned := by
      rw [hcfg, Config.mem_default_assigned_iff]
      have op := unpack_op_toNat w
      omega
    rw [decode_eq]
    exact exec_ofFields_of_not_writer fun _ => unassigned
  exact ⟨inert, fun h => inert (by omega)⟩

end Sys2Proof.Machine
end

section
/-! The generation (`43_commit.md`): the invariant, what a step cannot do, conflicts and lone writers, and the cores
that a step leaves as they are. -/

namespace Sys2Proof.Machine

/-! ## How a step ends -/

/-- A step of a core with cells commits its requests and does nothing else. -/
theorem eq_of_step {s t : State} (pos : 0 < s.size) (h : step s = .next t) :
    t = ⟨s.cfg, s.size, commitMem s.allRequests s.mem, s.instructionCounter + 1, 0, []⟩ := by
  rw [step_eq pos] at h
  cases h
  rfl

theorem step_empty {s : State} (h : s.size = 0) : step s = .fault .noCore := if_pos h

/-- Settles O37: a generation has one fault, tested first, and is the commit otherwise. -/
theorem onlyAnEmptyCoreStops : Obligations.OnlyAnEmptyCoreStops := by
  unfold Obligations.OnlyAnEmptyCoreStops
  exact fun s => ⟨step_empty, fun pos => ⟨_, step_eq pos⟩⟩

/-- Settles O39: the requests are those of a core with any counter, and the commit adds one to it. -/
theorem counterIsNeverRead : Obligations.CounterIsNeverRead := by
  unfold Obligations.CounterIsNeverRead
  intro s t n pos h
  rw [eq_of_step pos h]
  exact step_eq (s := { s with instructionCounter := n }) pos

/-- The requests of the rules are those of `exec` at every cell. -/
theorem State.allRequests_eq (s : State) :
    s.allRequests = (List.range s.size).flatMap fun i => requestsIn (s.alone i) :=
  List.flatMap_congr fun _ hi => (State.requestsIn_alone (List.mem_range.mp hi)).symm

/-- Settles O29: the requests that a step commits are those of `exec` at every cell. -/
theorem stepRunsEveryDecodedInstruction : Obligations.StepRunsEveryDecodedInstruction := by
  unfold Obligations.StepRunsEveryDecodedInstruction
  intro s pos
  rw [step_eq pos, State.allRequests_eq]
  rfl

/-! ## The invariant -/

/-- A request is for a cell of the core and of a Word of the core's width. -/
theorem State.allRequests_inRange {s : State} (h : s.Inv) {r : Request} (hr : r ∈ s.allRequests) :
    r.dest < s.size ∧ inRange s.cfg.xlen r.value := by
  obtain ⟨⟨wide, -⟩, pos, -⟩ := h
  obtain ⟨i, -, hi⟩ := State.mem_allRequests.mp hr
  exact ⟨State.requestOf_dest_lt pos hi, (State.requestOf_value (by omega) hi).1⟩

theorem step_inv {s t : State} (h : s.Inv) (hs : step s = .next t) : t.Inv := by
  have requests {r : Request} := State.allRequests_inRange h (r := r)
  obtain ⟨hcfg, pos, canonical, listed, -, -⟩ := h
  rw [eq_of_step pos hs]
  refine ⟨hcfg, pos, commitMem_wf canonical _, fun p hp => ?_, rfl, rfl⟩
  rcases mem_commitMem hp with ⟨r, hr, rfl⟩ | old
  · exact requests hr
  · exact listed p old

/-- Settles O34: the commit lists old entries and requested Words alone. -/
theorem stepKeepsTheInvariant : Obligations.StepKeepsTheInvariant := by
  unfold Obligations.StepKeepsTheInvariant
  exact fun s t h hs => step_inv h hs

/-- Settles O35: the state after reset lists no cell. -/
theorem resetMeetsTheInvariant : Obligations.ResetMeetsTheInvariant := by
  unfold Obligations.ResetMeetsTheInvariant
  decide

/-- Settles O36: an empty memory reads as the blank cell everywhere. -/
theorem resetIsZeroed : Obligations.ResetIsZeroed := by
  unfold Obligations.ResetIsZeroed
  exact ⟨fun _ => rfl, ⟨Owner.black, fun _ => rfl⟩, rfl⟩

/-! ## The cells after a step -/

/-- A cell without exactly one writer is as before. -/
theorem load_step_of_not_lone {s t : State} (h : Memory.wf s.mem) (pos : 0 < s.size) (hs : step s = .next t)
    {d : Nat} (hw : (s.writersOf d).length ≠ 1) : t.mem.load d = s.mem.load d := by
  rw [eq_of_step pos hs]
  exact State.load_commit_of_not_lone h hw

/-- A cell with exactly one writer has that writer's value and pre-step owner. -/
theorem load_step_of_lone {s t : State} (h : Memory.wf s.mem) (pos : 0 < s.size) (hs : step s = .next t) {d i : Nat}
    (hw : s.writersOf d = [i]) :
    ∃ r, s.requestOf i = some r ∧ i < s.size ∧ t.mem.load d = ⟨r.value, (s.mem.load i).owner⟩ := by
  obtain ⟨hi, r, hr, -⟩ := State.mem_writersOf.mp (hw ▸ List.mem_singleton_self i : i ∈ s.writersOf d)
  refine ⟨r, hr, hi, ?_⟩
  rw [eq_of_step pos hs, ← State.requestOf_owner hr]
  exact State.load_commit_of_lone h hw hr

/-- A cell that exactly one other asks for has that one writer. -/
theorem State.writersOf_eq_singleton {s : State} {i : Nat} {r : Request} (hi : i < s.size)
    (hr : s.requestOf i = some r)
    (alone : ∀ j < s.size, j ≠ i → ∀ q, s.requestOf j = some q → q.dest ≠ r.dest) : s.writersOf r.dest = [i] := by
  have only (j : Nat) : j ∈ s.writersOf r.dest ↔ j ∈ [i] := by
    rw [State.mem_writersOf, List.mem_singleton]
    constructor
    · rintro ⟨hj, q, hq, hd⟩
      exact by_contra fun other => alone j hj other q hq hd
    · rintro rfl
      exact ⟨hi, r, hr, rfl⟩
  exact List.perm_singleton.mp
    ((List.perm_ext_iff_of_nodup (s.writersOf_nodup _) (List.nodup_singleton i)).mpr only)

/-- Settles O31: two writers are not exactly one. -/
theorem conflictKeepsTheDestination : Obligations.ConflictKeepsTheDestination := by
  unfold Obligations.ConflictKeepsTheDestination
  intro s i j p q pos canonical hi hj hij hp hq same
  have mi : i ∈ s.writersOf p.dest := State.mem_writersOf.mpr ⟨hi, p, hp, rfl⟩
  have mj : j ∈ s.writersOf p.dest := State.mem_writersOf.mpr ⟨hj, q, hq, same.symm⟩
  have notLone : (s.writersOf p.dest).length ≠ 1 := by
    intro one
    obtain ⟨k, hk⟩ := List.length_eq_one_iff.mp one
    rw [hk, List.mem_singleton] at mi mj
    exact hij (mi.trans mj.symm)
  have kept := load_step_of_not_lone canonical pos (step_eq pos) notLone
  have own : norm s.size (p.dest : Int) = p.dest := norm_of_lt (State.requestOf_dest_lt pos hp)
  refine ⟨_, step_eq pos, ?_, ?_⟩
  · rw [State.memRead_eq, State.memRead_eq, own, kept]
  · rw [State.ownerRead_eq, State.ownerRead_eq, own, kept]

/-- Settles O33: a cell is as before or has one writer's pre-step owner, and the entries are those of the
invariant. -/
theorem whatAStepCannotDo : Obligations.WhatAStepCannotDo := by
  unfold Obligations.WhatAStepCannotDo
  intro s t h hs
  obtain ⟨-, -, -, listed, -, -⟩ := step_inv h hs
  obtain ⟨-, pos, canonical, -⟩ := h
  obtain ⟨-, size, -⟩ := step_frame hs
  refine ⟨size, fun d _ changed => ?_, fun d hd => ?_, fun p hp => (listed p hp).1⟩
  · exact by_contra fun notLone => changed (load_step_of_not_lone canonical pos hs notLone)
  · by_cases one : (s.writersOf d).length = 1
    · obtain ⟨i, hw⟩ := List.length_eq_one_iff.mp one
      obtain ⟨r, -, hi, cell⟩ := load_step_of_lone canonical pos hs hw
      exact ⟨i, hi, by rw [cell]⟩
    · exact ⟨d, hd, by rw [load_step_of_not_lone canonical pos hs one]⟩

/-! ## Lone writers and idle cores -/

/-- Settles O43: the target has one writer, whose request is the operation's. -/
theorem loneWriterStoresItsResult : Obligations.LoneWriterStoresItsResult := by
  unfold Obligations.LoneWriterStoresItsResult
  intro s i o c ca t s1 s2 h hi decoded holds d alone
  obtain ⟨-, pos, canonical, -⟩ := h
  have request := State.requestOf_of_decode hi decoded holds
  rw [State.requestFor_eq] at request
  have lone : s.writersOf d = [i] := State.writersOf_eq_singleton hi request alone
  obtain ⟨r, hr, -, cell⟩ := load_step_of_lone canonical pos (step_eq pos) lone
  cases request.symm.trans hr
  have own : norm s.size (d : Int) = d := State.norm_ea (s.atSite i) t
  refine ⟨_, step_eq pos, ?_, ?_⟩
  · rw [State.memRead_eq, own, cell]
    rfl
  · rw [State.ownerRead_eq, own, cell, s.ownerRead_eq i, norm_of_lt hi]

/-- Settles O42: the cell is its own target and both its sources, and a Word with itself gives 0. -/
theorem clearingItselfStopsACell : Obligations.ClearingItselfStopsACell := by
  unfold Obligations.ClearingItselfStopsACell
  intro s i c ca h hi decoded holds alone
  have own : (s.atSite i).ea (.direct 0) = i := by
    rw [AddressField.direct, State.ea_of_direct, add_zero]
    exact norm_of_lt hi
  have stored := loneWriterStoresItsResult s i .xor c ca _ _ _ h hi decoded holds
  rw [own] at stored
  obtain ⟨u, hs, word, owner⟩ := stored alone
  exact ⟨u, hs, word.trans (aluXor_self _ _), owner⟩

/-- A core whose Words are all 0 makes no request. -/
theorem State.allRequests_of_zeroed {s : State} (hcfg : s.cfg.wf) (zero : ∀ z : Int, s.memRead z = 0) :
    s.allRequests = [] := by
  rw [State.allRequests_eq, List.flatMap_eq_nil_iff]
  intro i hi
  have inert : s.alone i = .next (s.atSite i) :=
    allZeroWordIsNeverAWriter.2 (s.atSite i) hcfg (List.mem_range.mp hi) (zero i)
  rw [inert]
  rfl

/-- Settles O41: there is no request to commit. -/
theorem zeroedCoreIsAFixedPoint : Obligations.ZeroedCoreIsAFixedPoint := by
  unfold Obligations.ZeroedCoreIsAFixedPoint
  intro s h zero
  obtain ⟨hcfg, pos, -, -, site, requests⟩ := h
  have idle : commitMem [] s.mem = s.mem := rfl
  rw [step_eq pos, State.allRequests_of_zeroed hcfg zero, idle, ← site, ← requests]

end Sys2Proof.Machine
end

section
/-! The host port (`45_host_port_and_assembler.md` rule R150 to rule R173): constructions and host operations keep
the invariant and complete, and where the words of a write and of an assembly land. -/

namespace Sys2Proof.Machine

/-! ## Constructions -/

/-- The cells of a randomized construction, in a core with any counter, meet the invariant. -/
theorem randomCells_inv {cfg : Config} (hcfg : cfg.wf) {n : Nat} (pos : 0 < n) (word : Nat → Int)
    (owner : Nat → Owner) (counter : Nat) :
    (State.mk cfg n (randomCells cfg.xlen word owner n) counter 0 []).Inv := by
  obtain ⟨wide, -⟩ := id hcfg
  obtain ⟨canonical, -, listed⟩ := randomCells_spec cfg.xlen word owner n
  refine ⟨hcfg, pos, canonical, fun p hp => ?_, rfl, rfl⟩
  obtain ⟨inside, z, hz⟩ := listed p hp
  have width : 1 ≤ cfg.xlen := by omega
  exact ⟨inside, hz ▸ wrap_inRange width z⟩

/-- Settles O45: a zeroed construction lists no cell, a randomized one lists wrapped draws. -/
theorem constructedCoresMeetTheInvariant : Obligations.ConstructedCoresMeetTheInvariant := by
  unfold Obligations.ConstructedCoresMeetTheInvariant
  intro cfg size fill s hcfg made
  unfold construct at made
  split at made
  · cases made
  · have pos : 0 < size.toNat := by omega
    cases made
    cases fill with
    | zeroed => exact ⟨hcfg, pos, Memory.wf_nil, by simp, rfl, rfl⟩
    | randomized rng => exact randomCells_inv hcfg pos rng.word rng.owner 0

/-! ## Host operations -/

theorem performHost_inv {op : HostOp} {s t : State} {reply : Reply} (h : s.Inv)
    (performed : performHost op s = .next (reply, t)) : t.Inv := by
  cases op with
  | read | words | owners | ctr => cases performed; exact h
  | write i w o => cases performed; exact State.write_inv h i w o
  | step =>
    simp only [performHost] at performed
    split at performed
    · cases performed; exact step_inv h ‹_›
    · cases performed
    · cases performed
  | assemble text address owner =>
    obtain ⟨ws, rfl⟩ := performHost_assemble performed
    exact State.writeAll_inv h address owner ws

theorem performAll_inv {ops : List HostOp} {s t : State} (h : s.Inv) (performed : performAll ops s = .next t) :
    t.Inv := by
  induction ops generalizing s with
  | nil =>
    cases performed
    exact h
  | cons op ops ih =>
    obtain ⟨reply, u, first, rest⟩ := performAll_cons performed
    exact ih (performHost_inv h first) rest

/-- Settles O49: every operation of the sequence keeps the invariant. -/
theorem hostOperationsKeepTheInvariant : Obligations.HostOperationsKeepTheInvariant := by
  unfold Obligations.HostOperationsKeepTheInvariant
  exact fun ops s t h performed => performAll_inv h performed

/-- Settles O50: a core between operations has cells to step, and an assembly ends in one of three ways. -/
theorem hostOperationsComplete : Obligations.HostOperationsComplete := by
  unfold Obligations.HostOperationsComplete
  intro op s h
  obtain ⟨-, pos, -⟩ := h
  cases op with
  | read | write | words | owners | ctr => exact .inl ⟨_, _, rfl⟩
  | step => exact .inl ⟨.none, _, by rw [performHost, step_eq pos]⟩
  | assemble text address owner =>
    simp only [performHost, assemble]
    rcases assembleLines_cases (sourceLines text) address owner s with
      ⟨n, labels, ws, done⟩ | ⟨e, ws, failed⟩ | ⟨r, refused, rfl | rfl | rfl⟩
    · exact .inl ⟨_, _, by rw [done]⟩
    · exact .inl ⟨_, _, by rw [failed]⟩
    · exact .inr ⟨⟨text, address, owner, rfl⟩, .inl (by rw [refused])⟩
    · exact .inr ⟨⟨text, address, owner, rfl⟩, .inr (.inl (by rw [refused]))⟩
    · exact .inr ⟨⟨text, address, owner, rfl⟩, .inr (.inr (by rw [refused]))⟩

/-! ## Where written words land -/

/-- The cell an index reaches after a host write of a Word. -/
theorem State.cellAt_write {s : State} (h : s.Inv) (i : Int) {w : Int} (hw : inRange s.cfg.xlen w) (o : Owner)
    (j : Int) : (s.write i w o).cellAt j = if norm s.size j = norm s.size i then ⟨w, o⟩ else s.cellAt j := by
  obtain ⟨wide, -⟩ := h.1
  rw [State.cellAt, State.load_write h, wrap_of_inRange (by omega) hw]
  rfl

/-- Settles O46: a read is the Word of the cell, and a write stores one cell. -/
theorem readAndWrite : Obligations.ReadAndWrite := by
  unfold Obligations.ReadAndWrite
  intro s i j w o h hw
  have cell := State.cellAt_write h i hw o j
  refine ⟨rfl, s.write i w o, rfl, rfl, rfl, rfl, ?_, ?_⟩
  · rw [State.read, State.memRead, cell, apply_ite Cell.word]
    rfl
  · rw [State.ownerRead, cell, apply_ite Cell.owner]
    rfl

/-- A cell that no written word reaches is as before. -/
theorem State.load_writeAll_other {s : State} (h : s.Inv) (address : Int) (owner : Owner) {ws : List Int} {d : Nat}
    (other : ∀ k < ws.length, norm s.size (address + k) ≠ d) :
    (s.writeAll address owner ws).mem.load d = s.mem.load d := by
  induction ws generalizing s address with
  | nil => rfl
  | cons w ws ih =>
    have first := other 0 (by simp)
    rw [State.writeAll_cons, ih (State.write_inv h _ _ _), State.load_write h, if_neg]
    · rintro rfl
      exact first (by simp)
    · intro k hk
      have later := other (k + 1) (by simpa using hk)
      push_cast at later
      rwa [State.write_size, add_right_comm, add_assoc]

/-- The last word that reaches a cell is in it. -/
theorem State.load_writeAll_last {s : State} (h : s.Inv) (address : Int) (owner : Owner) {ws : List Int} {k : Nat}
    {w : Int} (hw : ws[k]? = some w)
    (last : ∀ j < ws.length, k < j → norm s.size (address + j) ≠ norm s.size (address + k)) :
    (s.writeAll address owner ws).mem.load (norm s.size (address + k)) = ⟨wrap s.cfg.xlen w, owner⟩ := by
  induction ws generalizing s address k with
  | nil => simp at hw
  | cons v ws ih =>
    have next := State.write_inv h address v owner
    have shift (j : Nat) : address + 1 + (j : Int) = address + ((j + 1 : Nat) : Int) := by push_cast; ring
    rw [State.writeAll_cons]
    cases k with
    | zero =>
      cases hw
      rw [State.load_writeAll_other next, State.load_write h]
      · simp
      · intro j hj
        rw [shift]
        exact last (j + 1) (by simpa using hj) (by omega)
    | succ k =>
      rw [← shift]
      refine ih next (address + 1) hw fun j hj hkj => ?_
      rw [shift, shift]
      exact last (j + 1) (by simpa using hj) (by omega)

/-- Fewer places than the size are different cells. -/
theorem norm_add_ne {n j k : Nat} (hj : j < n) (hkj : k < j) (a : Int) : norm n (a + j) ≠ norm n (a + k) := by
  intro same
  have pos : 0 < n := by omega
  have dvd : (n : Int) ∣ (a + j) - (a + k) := by
    refine Int.dvd_of_emod_eq_zero (Int.emod_eq_emod_iff_emod_sub_eq_zero.mp ?_)
    rw [← norm_cast pos, ← norm_cast pos, same]
  have small := Int.le_of_dvd (by omega) dvd
  omega

/-- Settles O59: the last word to reach a cell stays there, and no two of at most N places in a row are one cell. -/
theorem writtenWordsLandInOrder : Obligations.WrittenWordsLandInOrder := by
  unfold Obligations.WrittenWordsLandInOrder
  intro s address owner ws h range t
  obtain ⟨-, size, counter⟩ := s.writeAll_frame address owner ws
  obtain ⟨wide, -⟩ := h.1
  have lands {k : Nat} {w : Int} (hw : ws[k]? = some w)
      (last : ∀ j < ws.length, k < j → norm s.size (address + j) ≠ norm s.size (address + k)) :
      t.cellAt (address + k) = ⟨w, owner⟩ := by
    rw [State.cellAt, size, State.load_writeAll_last h address owner hw last,
      wrap_of_inRange (by omega) (range w (List.mem_of_getElem? hw))]
  refine ⟨counter, size, fun k w hw last => ?_, fun d _ other => State.load_writeAll_other h address owner other,
    fun few k w hw => ?_⟩
  · exact ⟨congrArg Cell.word (lands hw last), congrArg Cell.owner (lands hw last)⟩
  · have cell := lands hw fun j hj hkj => norm_add_ne (by omega) hkj address
    exact ⟨congrArg Cell.word cell, congrArg Cell.owner cell⟩

end Sys2Proof.Machine
end

section
/-! Owner types (`10_state.md` rule R21, `00_scope.md` rule R5): a core read under a renaming of its owners steps to
the renamed core's step, so owners reach no Word, and a State shows a core over any owner type. -/

namespace Sys2Proof.Machine

/-! ## One generation over an owner type -/

theorem CoreOver.step_of_lone {O : Type} {c : CoreOver O} {d i : Nat} (lone : c.writersOf d = [i]) :
    c.step.word d = ((c.demand i).map Prod.snd).getD (c.word d) ∧ c.step.owner d = c.owner i := by
  simp only [CoreOver.step, lone, and_self]

theorem CoreOver.step_of_not_lone {O : Type} {c : CoreOver O} {d : Nat} (notLone : (c.writersOf d).length ≠ 1) :
    c.step.word d = c.word d ∧ c.step.owner d = c.owner d := by
  simp only [CoreOver.step]
  split
  · rename_i lone
    exact absurd (congrArg List.length lone) notLone
  · exact ⟨rfl, rfl⟩

/-- A cell has exactly one writer, which is a cell of the core, or it has not. -/
theorem CoreOver.lone_or_not {O : Type} (c : CoreOver O) (d : Nat) :
    (∃ i < c.size, c.writersOf d = [i]) ∨ (c.writersOf d).length ≠ 1 := by
  by_cases one : (c.writersOf d).length = 1
  · obtain ⟨i, lone⟩ := List.length_eq_one_iff.mp one
    have listed : i ∈ c.writersOf d := lone ▸ List.mem_singleton_self i
    exact .inl ⟨i, List.mem_range.mp (List.mem_filter.mp listed).1, lone⟩
  · exact .inr one

/-! ## Cores under a reading of their owners -/

/-- The core `b` is the core `a` with its owners read by `name`, as far as its cells go. -/
structure CoreOver.Reads {O P : Type} (name : O → P) (a : CoreOver O) (b : CoreOver P) : Prop where
  cfg : a.cfg = b.cfg
  size : a.size = b.size
  counter : a.counter = b.counter
  word : ∀ d < a.size, a.word d = b.word d
  owner : ∀ d < a.size, name (a.owner d) = b.owner d

/-- Reading owners commutes with a step. -/
theorem CoreOver.Reads.step {O P : Type} {name : O → P} {a : CoreOver O} {b : CoreOver P}
    (h : CoreOver.Reads name a b) (pos : 0 < a.size) : CoreOver.Reads name a.step b.step := by
  have cell (d : Nat) (hd : d < a.size) :
      a.step.word d = b.step.word d ∧ name (a.step.owner d) = b.step.owner d := by
    have writers : a.writersOf d = b.writersOf d := CoreOver.writersOf_congr h.cfg h.size pos h.word d
    rcases a.lone_or_not d with ⟨i, hi, lone⟩ | notLone
    · obtain ⟨wa, oa⟩ := CoreOver.step_of_lone lone
      obtain ⟨wb, ob⟩ := CoreOver.step_of_lone (writers ▸ lone)
      rw [wa, wb, oa, ob, CoreOver.demand_congr h.cfg h.size pos h.word hi, h.word d hd]
      exact ⟨rfl, h.owner i hi⟩
    · obtain ⟨wa, oa⟩ := CoreOver.step_of_not_lone notLone
      obtain ⟨wb, ob⟩ := CoreOver.step_of_not_lone (writers ▸ notLone)
      rw [wa, wb, oa, ob]
      exact ⟨h.word d hd, h.owner d hd⟩
  exact ⟨h.cfg, h.size, congrArg (· + 1) h.counter, fun d hd => (cell d hd).1, fun d hd => (cell d hd).2⟩

theorem State.shows_iff {O : Type} {s : State} {name : Owner → O} {c : CoreOver O} :
    s.Shows name c ↔ CoreOver.Reads name s.arrays c := by
  constructor
  · rintro ⟨cfg, size, counter, cells⟩
    exact ⟨cfg, size, counter, fun d hd => (cells d hd).1, fun d hd => (cells d hd).2⟩
  · rintro ⟨cfg, size, counter, word, owner⟩
    exact ⟨cfg, size, counter, fun d hd => ⟨word d hd, owner d hd⟩⟩

/-! ## What a State shows -/

/-- A step of a State is the step of its arrays. -/
theorem State.load_step {s t : State} (h : s.Inv) (hs : Machine.step s = .next t) (d : Nat) :
    t.mem.load d = ⟨s.arrays.step.word d, s.arrays.step.owner d⟩ := by
  obtain ⟨-, pos, canonical, -⟩ := h
  rcases s.arrays.lone_or_not d with ⟨i, -, lone⟩ | notLone
  · obtain ⟨r, hr, -, cell⟩ := load_step_of_lone canonical pos hs lone
    obtain ⟨p, hp, rfl⟩ := Option.map_eq_some_iff.mp hr
    obtain ⟨word, owner⟩ := CoreOver.step_of_lone lone
    rw [cell, word, owner, hp]
    rfl
  · obtain ⟨word, owner⟩ := CoreOver.step_of_not_lone notLone
    rw [load_step_of_not_lone canonical pos hs notLone, word, owner]
    rfl

theorem State.Shows.step {O : Type} {s t : State} {name : Owner → O} {c : CoreOver O} (shows : s.Shows name c)
    (h : s.Inv) (hs : Machine.step s = .next t) : t.Shows name c.step := by
  obtain ⟨-, pos, -⟩ := id h
  obtain ⟨cfg, size, counter⟩ := step_frame hs
  have stepped := (State.shows_iff.mp shows).step pos
  refine ⟨cfg.trans stepped.cfg, size.trans stepped.size, counter.trans stepped.counter, fun d hd => ?_⟩
  rw [size] at hd
  rw [State.load_step h hs]
  exact ⟨stepped.word d hd, stepped.owner d hd⟩

theorem State.Shows.write {O : Type} {s : State} {name : Owner → O} {c : CoreOver O} (shows : s.Shows name c)
    (h : s.Inv) (i w : Int) (o : Owner) : (s.write i w o).Shows name (c.write i w (name o)) := by
  obtain ⟨cfg, size, counter, cells⟩ := shows
  refine ⟨cfg, size, counter, fun d hd => ?_⟩
  rw [State.load_write h, size, cfg]
  simp only [CoreOver.write]
  split_ifs
  · exact ⟨rfl, rfl⟩
  · exact cells d hd

theorem State.Shows.writeAll {O : Type} {s : State} {name : Owner → O} {c : CoreOver O} (shows : s.Shows name c)
    (h : s.Inv) (i : Int) (o : Owner) (ws : List Int) :
    (s.writeAll i o ws).Shows name (c.writeAll i (name o) ws) := by
  induction ws generalizing s c i with
  | nil => exact shows
  | cons w ws ih => exact ih (shows.write h i w o) (State.write_inv h i w o) (i + 1)

/-- Every State leaves a name free. -/
theorem State.exists_fresh_owner (s : State) : ∃ o : Owner, ∀ d < s.size, (s.mem.load d).owner ≠ o := by
  obtain ⟨n, unused⟩ :=
    Infinite.exists_notMem_finset ((Finset.range s.size).image fun d => (s.mem.load d).owner.id)
  refine ⟨⟨n⟩, fun d hd e => unused (Finset.mem_image.mpr ⟨d, Finset.mem_range.mpr hd, ?_⟩)⟩
  rw [e]

/-- A free name can be read as any identity. -/
theorem State.Shows.exists_name {O : Type} {s : State} {name : Owner → O} {c : CoreOver O}
    (shows : s.Shows name c) (x : O) : ∃ (name' : Owner → O) (o : Owner), s.Shows name' c ∧ name' o = x := by
  obtain ⟨o, fresh⟩ := s.exists_fresh_owner
  obtain ⟨cfg, size, counter, cells⟩ := shows
  refine ⟨Function.update name o x, o, ⟨cfg, size, counter, fun d hd => ?_⟩, Function.update_self ..⟩
  rw [Function.update_of_ne (fresh d hd)]
  exact cells d hd

/-- A memory filled with a core's Words, under names that are read as its owners, shows that core. -/
theorem randomCells_shows {O : Type} {c : CoreOver O} (width : 1 ≤ c.cfg.xlen)
    (range : ∀ d < c.size, inRange c.cfg.xlen (c.word d)) {owner : Nat → Owner} {name : Owner → O}
    (named : ∀ d < c.size, name (owner d) = c.owner d) :
    (State.mk c.cfg c.size (randomCells c.cfg.xlen c.word owner c.size) c.counter 0 []).Shows name c := by
  obtain ⟨-, loads, -⟩ := randomCells_spec c.cfg.xlen c.word owner c.size
  refine ⟨rfl, rfl, rfl, fun d hd => ?_⟩
  rw [loads, if_pos hd, wrap_of_inRange width (range d hd)]
  exact ⟨rfl, named d hd⟩

/-- Every core over an owner type is shown by a State that names each cell's owner by the cell. -/
theorem CoreOver.exists_shows {O : Type} (c : CoreOver O) (hcfg : c.cfg.wf) (pos : 0 < c.size)
    (range : ∀ d < c.size, inRange c.cfg.xlen (c.word d)) :
    ∃ (s : State) (name : Owner → O), s.Inv ∧ s.Shows name c := by
  obtain ⟨wide, -⟩ := id hcfg
  exact ⟨_, fun o => c.owner o.id, randomCells_inv hcfg pos c.word Owner.mk c.counter,
    randomCells_shows (by omega) range fun _ _ => rfl⟩

/-- The distinct draws of a random source name any owners. -/
theorem RandomSource.exists_name {n : Nat} (rng : RandomSource n) {O : Type} (owner : Nat → O) :
    ∃ name : Owner → O, ∀ d < n, name (rng.owner d) = owner d := by
  have injective : Set.InjOn rng.owner (Set.Iio n) := fun i hi j hj => rng.distinct i hi j hj
  refine ⟨fun o => owner (Function.invFunOn rng.owner (Set.Iio n) o), fun d hd => ?_⟩
  exact congrArg owner (injective.leftInvOn_invFunOn hd)

/-! ## Owners and Words -/

/-- The words of a core, its owners forgotten. -/
def State.anonymous (s : State) : CoreOver Unit := { s.arrays with owner := fun _ => () }

theorem State.shows_anonymous (s : State) : s.Shows (fun _ => ()) s.anonymous :=
  ⟨rfl, rfl, rfl, fun _ _ => ⟨rfl, rfl⟩⟩

/-- Two States that show one core have the same Words. -/
theorem State.Shows.memRead_eq {O : Type} {s t : State} {f g : Owner → O} {c : CoreOver O} (hs : s.Shows f c)
    (ht : t.Shows g c) (pos : 0 < s.size) (z : Int) : s.memRead z = t.memRead z := by
  obtain ⟨-, size, -, word⟩ := hs
  obtain ⟨-, size', -, word'⟩ := ht
  have same : t.size = s.size := size'.trans size.symm
  have inside := norm_lt pos z
  rw [State.memRead_eq, State.memRead_eq, same, (word _ inside).1, (word' _ (same ▸ inside)).1]

/-- Settles O38: of a core without its owners two States that differ in owners alone are two showings, and a step of
each shows that core's step; the other clauses are the moves and constructions over any owner type. -/
theorem ownersNeverReachWords : Obligations.OwnersNeverReachWords := by
  unfold Obligations.OwnersNeverReachWords
  refine ⟨fun s t s' t' hs ht cfg size counter words ss st => ?_, fun O => ⟨fun c => c.exists_shows, ?_, ?_, ?_⟩⟩
  · have shown : t.Shows (fun _ => ()) s.anonymous := by
      refine ⟨cfg.symm, size.symm, counter.symm, fun d hd => ⟨?_, rfl⟩⟩
      have word := words d
      rw [State.memRead_eq, State.memRead_eq, norm_of_lt hd, norm_of_lt (size ▸ hd)] at word
      exact word.symm
    have next := s.shows_anonymous.step hs ss
    have next' := shown.step ht st
    obtain ⟨-, pos, -⟩ := step_inv hs ss
    obtain ⟨-, -, counted, -⟩ := id next
    obtain ⟨-, -, counted', -⟩ := id next'
    exact ⟨counted.trans counted'.symm, next.memRead_eq next' pos⟩
  · intro s name c h shows
    obtain ⟨-, pos, -⟩ := id h
    exact ⟨⟨_, step_eq pos, shows.step h (step_eq pos)⟩, shows.write h, shows.writeAll h, shows.exists_name⟩
  · intro cfg n black pos
    exact ⟨_, construct_zeroed cfg pos, rfl, rfl, rfl, fun _ _ => ⟨rfl, rfl⟩⟩
  · intro cfg n rng owner pos wide range
    obtain ⟨name, named⟩ := rng.exists_name owner
    exact ⟨_, name, construct_randomized cfg pos rng,
      randomCells_shows (c := CoreOver.fresh cfg n rng.word owner) (show 1 ≤ cfg.xlen by omega) range named⟩

end Sys2Proof.Machine
end

section
/-! Circular symmetry (`41_address.md` rule R100, rule R101): addresses, requests and commits move round with the
cells. -/

namespace Sys2Proof.Machine

/-- The cell `k` places round from cell `d`. -/
def turn (n : Nat) (k : Int) (d : Nat) : Nat := norm n (d + k)

theorem turn_lt {n : Nat} (h : 0 < n) (k : Int) (d : Nat) : turn n k d < n := norm_lt h _

/-- An index `k` places on reaches the cell `k` places round. -/
theorem norm_add_eq_turn {n : Nat} (h : 0 < n) (z k : Int) : norm n (z + k) = turn n k (norm n z) :=
  (norm_norm_add h z k).symm

/-- Turning one way and then the other comes back. -/
theorem turn_turn_neg {n : Nat} {d : Nat} (hd : d < n) (k : Int) : turn n (-k) (turn n k d) = d := by
  rw [turn, turn, norm_norm_add (by omega), add_neg_cancel_right, norm_of_lt hd]

theorem turn_injective {n : Nat} {k : Int} {d e : Nat} (hd : d < n) (he : e < n)
    (same : turn n k d = turn n k e) : d = e := by
  rw [← turn_turn_neg hd k, same, turn_turn_neg he]

/-- Every cell is some cell moved round. -/
theorem exists_turn_eq {n : Nat} (k : Int) {e : Nat} (he : e < n) : ∃ d < n, turn n k d = e := by
  refine ⟨turn n (-k) e, turn_lt (by omega) _ _, ?_⟩
  have back := turn_turn_neg he (-k)
  rwa [neg_neg] at back

/-- A request moved round. -/
def Request.turn (n : Nat) (k : Int) (r : Request) : Request := { r with dest := Machine.turn n k r.dest }

/-- The cells of `t` are those of `s` moved round by `k` places. -/
structure Turned (k : Int) (s t : State) : Prop where
  cfg : t.cfg = s.cfg
  size : t.size = s.size
  pos : 0 < s.size
  load : ∀ d < s.size, t.mem.load (turn s.size k d) = s.mem.load d

namespace Turned

variable {k : Int} {s t : State}

/-- Moved round the other way, the cells are back. -/
theorem symm (h : Turned k s t) : Turned (-k) t s := by
  refine ⟨h.cfg.symm, h.size.symm, h.size ▸ h.pos, fun d hd => ?_⟩
  rw [h.size] at hd ⊢
  obtain ⟨e, he, rfl⟩ := exists_turn_eq k hd
  rw [turn_turn_neg he, h.load e he]

theorem effectiveAddress (h : Turned k s t) (f : AddressField) (i : Nat) :
    t.effectiveAddress f (turn s.size k i) = turn s.size k (s.effectiveAddress f i) := by
  have place : norm s.size (turn s.size k i + f.offset) = turn s.size k (norm s.size (i + f.offset)) := by
    rw [turn, norm_norm_add h.pos, add_right_comm, norm_add_eq_turn h.pos]
  rw [State.effectiveAddress_eq, State.effectiveAddress_eq, h.size, place, h.load _ (norm_lt h.pos _)]
  split
  · rw [turn, norm_norm_add h.pos, add_right_comm, norm_add_eq_turn h.pos]
  · rfl

theorem effectiveAddress_lt (h : Turned k s t) (f : AddressField) (i : Nat) : s.effectiveAddress f i < s.size := by
  rw [State.effectiveAddress_eq]
  split <;> exact norm_lt h.pos _

theorem source (h : Turned k s t) (f : AddressField) (i : Nat) : t.source f (turn s.size k i) = s.source f i := by
  rw [State.source_eq, h.effectiveAddress, h.load _ (h.effectiveAddress_lt f i), State.source_eq]

/-- A cell moved round asks for the same, moved round. -/
theorem requestOf (h : Turned k s t) {i : Nat} (hi : i < s.size) :
    t.requestOf (turn s.size k i) = (s.requestOf i).map (Request.turn s.size k) := by
  rw [State.requestOf_eq, State.requestOf_eq, h.load i hi, h.cfg]
  split
  · rfl
  · simp only [h.source, h.effectiveAddress]
    split <;> rfl

/-- A lone writer moved round is a lone writer. -/
theorem writersOf (h : Turned k s t) {d i : Nat} (hd : d < s.size) (lone : s.writersOf d = [i]) :
    t.writersOf (turn s.size k d) = [turn s.size k i] := by
  obtain ⟨hi, r, hr, rfl⟩ := State.mem_writersOf.mp (lone ▸ List.mem_singleton_self i : i ∈ s.writersOf d)
  have request : t.requestOf (turn s.size k i) = some (r.turn s.size k) := by rw [h.requestOf hi, hr]; rfl
  refine State.writersOf_eq_singleton (h.size ▸ turn_lt h.pos k i) request fun j hj other q hq same => other ?_
  obtain ⟨j, inside, rfl⟩ := exists_turn_eq k (h.size ▸ hj)
  rw [h.requestOf inside] at hq
  obtain ⟨p, hp, rfl⟩ := Option.map_eq_some_iff.mp hq
  have dest : p.dest = r.dest := turn_injective (State.requestOf_dest_lt h.pos hp) hd same
  have listed : j ∈ s.writersOf r.dest := State.mem_writersOf.mpr ⟨inside, p, hp, dest⟩
  rw [lone, List.mem_singleton] at listed
  rw [listed]

/-- Moved round, a cell without exactly one writer has still not exactly one. -/
theorem writersOf_length_ne_one (h : Turned k s t) {d : Nat} (hd : d < s.size)
    (notLone : (s.writersOf d).length ≠ 1) : (t.writersOf (turn s.size k d)).length ≠ 1 := by
  intro one
  obtain ⟨j, lone⟩ := List.length_eq_one_iff.mp one
  have back := h.symm.writersOf (h.size.symm ▸ turn_lt h.pos k d) lone
  rw [h.size, turn_turn_neg hd] at back
  exact notLone (congrArg List.length back)

/-- A step keeps the cells moved round. -/
theorem load_step (h : Turned k s t) {s' t' : State} (ms : Memory.wf s.mem) (mt : Memory.wf t.mem)
    (hs : step s = .next s') (ht : step t = .next t') {d : Nat} (hd : d < s.size) :
    t'.mem.load (turn s.size k d) = s'.mem.load d := by
  have pos : 0 < t.size := h.size ▸ h.pos
  by_cases one : (s.writersOf d).length = 1
  · obtain ⟨i, lone⟩ := List.length_eq_one_iff.mp one
    obtain ⟨r, hr, hi, cell⟩ := load_step_of_lone ms h.pos hs lone
    obtain ⟨q, hq, -, cell'⟩ := load_step_of_lone mt pos ht (h.writersOf hd lone)
    rw [h.requestOf hi, hr] at hq
    cases hq
    rw [cell, cell', h.load i hi]
    rfl
  · rw [load_step_of_not_lone ms h.pos hs one,
      load_step_of_not_lone mt pos ht (h.writersOf_length_ne_one hd one), h.load d hd]

end Turned

/-- Settles O40: lone writers move round with the cells, and a step goes by the lone writers. -/
theorem stepCommutesWithRotation : Obligations.StepCommutesWithRotation := by
  unfold Obligations.StepCommutesWithRotation
  intro s t s' t' k hs ht cfg size cells ss st z
  obtain ⟨-, pos, ms, -⟩ := hs
  obtain ⟨-, -, mt, -⟩ := ht
  have load (d : Nat) (hd : d < s.size) : t.mem.load (turn s.size k d) = s.mem.load d := by
    have cell := cells d
    rwa [State.cellAt, State.cellAt, ← size, norm_of_lt hd] at cell
  have turned : Turned k s t := ⟨cfg.symm, size.symm, pos, load⟩
  obtain ⟨-, size', -⟩ := step_frame ss
  obtain ⟨-, size'', -⟩ := step_frame st
  rw [State.cellAt, State.cellAt, size', size'', ← size, norm_add_eq_turn pos]
  exact turned.load_step ms mt ss st (norm_lt pos z)

end Sys2Proof.Machine
end

section
/-! The assembler's reading of a text (`45_host_port_and_assembler.md` rule R162, rule R164, `30_encoding.md`
rule R78, rule R81): labels, literals, and the texts that are refused for their spelling. -/

namespace Sys2Proof.Machine

/-! ## Labels -/

/-- Settles O52: what a label resolves to goes by what the table finds. -/
theorem labelOffsets : Obligations.LabelOffsets := by
  unfold Obligations.LabelOffsets
  intro table pos indirect name
  unfold Operand.resolve
  constructor
  · intro p found
    simp only [found]
  · intro unbound
    simp only [unbound]

theorem LabelTable.find_cons (n : Text) (p : Nat) (rest : LabelTable) (name : Text) :
    LabelTable.find ((n, p) :: rest) name = if n = name then some p else rest.find name := rfl

/-- The position after a line. -/
def SourceLine.after (l : SourceLine) (pos : Nat) : Nat := if l.emits then pos + 1 else pos

theorem bindLabels_cons_none {l : SourceLine} (h : l.label = none) (ls : List SourceLine) (pos : Nat)
    (table : LabelTable) : bindLabels (l :: ls) pos table = bindLabels ls (l.after pos) table := by
  rw [bindLabels, h]
  rfl

theorem bindLabels_cons_some {l : SourceLine} {name : Text} (h : l.label = some name) (ls : List SourceLine)
    (pos : Nat) (table : LabelTable) :
    bindLabels (l :: ls) pos table =
      if (table.find name).isSome then none else bindLabels ls (l.after pos) ((name, pos) :: table) := by
  rw [bindLabels, h]
  rfl

/-- Pass 1 accepts only lines whose labels are distinct and not bound before. -/
theorem bindLabels_fresh {lines : List SourceLine} {pos : Nat} {table result : LabelTable}
    (h : bindLabels lines pos table = some result) :
    (lines.filterMap SourceLine.label).Nodup ∧
      ∀ name ∈ lines.filterMap SourceLine.label, table.find name = none := by
  induction lines generalizing pos table with
  | nil => simp
  | cons l ls ih =>
    cases hl : l.label with
    | none =>
      rw [bindLabels_cons_none hl] at h
      rw [List.filterMap_cons_none hl]
      exact ih h
    | some name =>
      rw [bindLabels_cons_some hl] at h
      rw [List.filterMap_cons_some hl]
      split at h
      · cases h
      · rename_i unbound
        rw [Option.not_isSome_iff_eq_none] at unbound
        obtain ⟨distinct, fresh⟩ := ih h
        have other (m : Text) (hm : m ∈ ls.filterMap SourceLine.label) : name ≠ m ∧ table.find m = none := by
          have free := fresh m hm
          rw [LabelTable.find_cons] at free
          split at free
          · cases free
          · exact ⟨‹_›, free⟩
        refine ⟨List.nodup_cons.mpr ⟨fun hm => (other name hm).1 rfl, distinct⟩, fun m hm => ?_⟩
        rcases List.mem_cons.mp hm with rfl | hm
        · exact unbound
        · exact (other m hm).2

/-- Where the labels are distinct and not bound before, pass 1 binds each to the number of emitting lines before
it and leaves the other names. -/
theorem bindLabels_spec {lines : List SourceLine} (pos : Nat) (table : LabelTable)
    (distinct : (lines.filterMap SourceLine.label).Nodup)
    (fresh : ∀ name ∈ lines.filterMap SourceLine.label, table.find name = none) :
    ∃ result, bindLabels lines pos table = some result ∧
      (∀ name ∉ lines.filterMap SourceLine.label, result.find name = table.find name) ∧
      ∀ (k : Nat) (l : SourceLine) (name : Text), lines[k]? = some l → l.label = some name →
        result.find name = some (pos + (lines.take k).countP SourceLine.emits) := by
  induction lines generalizing pos table with
  | nil => exact ⟨table, rfl, fun _ _ => rfl, by simp⟩
  | cons l ls ih =>
    have count (k : Nat) : l.after pos + (ls.take k).countP SourceLine.emits =
        pos + ((l :: ls).take (k + 1)).countP SourceLine.emits := by
      rw [List.take_succ_cons, List.countP_cons, SourceLine.after]
      split <;> omega
    cases hl : l.label with
    | none =>
      rw [List.filterMap_cons_none hl] at distinct fresh ⊢
      obtain ⟨result, bound, others, each⟩ := ih (l.after pos) table distinct fresh
      refine ⟨result, by rw [bindLabels_cons_none hl, bound], others, fun k m name hm named => ?_⟩
      cases k with
      | zero =>
        cases hm
        exact absurd named (by simp [hl])
      | succ k => rw [← count, each k m name hm named]
    | some first =>
      rw [List.filterMap_cons_some hl] at distinct fresh ⊢
      obtain ⟨single, distinct⟩ := List.nodup_cons.mp distinct
      have later (name : Text) (hn : name ∈ ls.filterMap SourceLine.label) :
          LabelTable.find ((first, pos) :: table) name = none := by
        rw [LabelTable.find_cons, if_neg (by rintro rfl; exact single hn)]
        exact fresh name (List.mem_cons_of_mem _ hn)
      obtain ⟨result, bound, others, each⟩ := ih (l.after pos) ((first, pos) :: table) distinct later
      refine ⟨result, ?_, fun name hn => ?_, fun k m name hm named => ?_⟩
      · rw [bindLabels_cons_some hl, fresh first (by simp), bound]
        rfl
      · obtain ⟨other, hn⟩ := not_or.mp (mt List.mem_cons.mpr hn)
        rw [others name hn, LabelTable.find_cons, if_neg (Ne.symm other)]
      · cases k with
        | zero =>
          cases hm
          cases hl.symm.trans named
          rw [others first single, LabelTable.find_cons, if_pos rfl]
          rfl
        | succ k => rw [← count, each k m name hm named]

/-- Settles O55: pass 1 accepts exactly the lines with distinct labels. -/
theorem passOneBindsOrRejects : Obligations.PassOneBindsOrRejects := by
  unfold Obligations.PassOneBindsOrRejects
  intro lines address owner s
  constructor
  · intro repeated
    have rejected : bindLabels lines 0 [] = none := by
      cases h : bindLabels lines 0 [] with
      | none => rfl
      | some table => exact absurd (bindLabels_fresh h).1 repeated
    rw [assembleLines, rejected]
  · intro distinct
    obtain ⟨table, bound, -, each⟩ := bindLabels_spec 0 [] distinct fun _ _ => rfl
    simp only [zero_add] at each
    exact ⟨table, bound, each⟩

/-! ## Literals -/

/-- The characters of a written literal are read as its expression. -/
theorem Written.parseExpr_spell {w : Written} (hw : w.wf) : parseExpr w.spell = some w.expr := by
  obtain ⟨-, -, sum⟩ := w.reads hw
  obtain ⟨pending, e, read, value⟩ := sum Parse.start rfl rfl rfl []
  rw [List.append_nil] at read
  rw [parseExpr, Written.lex_spell hw, read]
  exact congrArg some value

/-- A character that a written literal can have. -/
def isLiteralChar (c : Char) : Bool := isNameChar c || ['(', ')', '+', '-', '*', '/'].contains c

theorem isLiteralChar_of_isNameChar {c : Char} (h : isNameChar c = true) : isLiteralChar c = true := by
  rw [isLiteralChar, h, Bool.true_or]

theorem isSpace_of_isLiteralChar {c : Char} (h : isLiteralChar c = true) : isSpace c = false := by
  by_contra space
  simp only [isSpace, Bool.or_eq_true, decide_eq_true_eq, Bool.not_eq_false] at space
  rcases space with (rfl | rfl) | rfl <;> exact absurd h (by decide)

theorem Written.spell_isLiteralChar {w : Written} (hw : w.wf) : ∀ c ∈ w.spell, isLiteralChar c = true := by
  have binary {a b : Text} {op : Char} (ha : ∀ c ∈ a, isLiteralChar c = true) (hop : isLiteralChar op = true)
      (hb : ∀ c ∈ b, isLiteralChar c = true) : ∀ c ∈ a ++ op :: b, isLiteralChar c = true :=
    List.forall_mem_append.mpr ⟨ha, List.forall_mem_cons.mpr ⟨hop, hb⟩⟩
  induction w with
  | number ds => exact fun c hc => isLiteralChar_of_isNameChar (isNameChar_of_digits hw c hc)
  | negative ds =>
    exact List.forall_mem_cons.mpr
      ⟨by decide, fun c hc => isLiteralChar_of_isNameChar (isNameChar_of_digits hw c hc)⟩
  | label n =>
    obtain ⟨-, chars, -⟩ := parseName_isSome hw
    exact fun c hc => isLiteralChar_of_isNameChar (chars c hc)
  | group a ih => exact List.forall_mem_cons.mpr ⟨by decide, binary (ih hw) (by decide) (by simp)⟩
  | add a b ha hb =>
    obtain ⟨wa, wb, -⟩ := hw
    exact binary (ha wa) (by decide) (hb wb)
  | sub a b ha hb =>
    obtain ⟨wa, wb, -⟩ := hw
    exact binary (ha wa) (by decide) (hb wb)
  | mul a b ha hb =>
    obtain ⟨wa, wb, -⟩ := hw
    exact binary (ha wa) (by decide) (hb wb)
  | div a b ha hb =>
    obtain ⟨wa, wb, -⟩ := hw
    exact binary (ha wa) (by decide) (hb wb)

theorem Written.spell_ne_nil {w : Written} (hw : w.wf) : w.spell ≠ [] := by
  cases w with
  | number ds => exact (parseDigits_isSome hw).1
  | label n => exact (parseName_isSome hw).1
  | _ => simp [Written.spell]

/-- A word with no separator is the only word. -/
theorem wordsOf_word {w : Text} (hne : w ≠ []) (h : ∀ c ∈ w, isSpace c = false) : wordsOf w = [w] := by
  rw [wordsOf, splitText_last h]
  simp [hne]

/-- A condition word has a point in it. -/
theorem parseCond_eq_none {w : Text} (h : '.' ∉ w) : parseCond w = none := by
  unfold parseCond
  split_ifs with zero positive negative nonZero
  · exact absurd (by simp [zero]) h
  · exact absurd (by simp [positive]) h
  · exact absurd (by simp [negative]) h
  · exact absurd (by simp [nonZero]) h
  · rfl

/-- A single word that is no condition word and no mnemonic makes no instruction line. -/
theorem instructionLine_word {w : Text} (cond : parseCond w = none) (op : parseOperation w = none) :
    instructionLine [w] = false := by
  simp [instructionLine, cond, op]

/-- The characters of a written literal are a literal line, unless they are a mnemonic. -/
theorem Written.parseStatement_spell {w : Written} (hw : w.wf) (op : parseOperation w.spell = none) :
    parseStatement w.spell = some (.literal w.expr) := by
  have chars := Written.spell_isLiteralChar hw
  have words : wordsOf w.spell = [w.spell] :=
    wordsOf_word (Written.spell_ne_nil hw) fun c hc => isSpace_of_isLiteralChar (chars c hc)
  have noPoint : '.' ∉ w.spell := fun point => absurd (chars _ point) (by decide)
  rw [parseStatement, words, instructionLine_word (parseCond_eq_none noPoint) op, Written.parseExpr_spell hw]
  rfl

/-- One more digit. -/
theorem digitsValue_append (ds : Text) (c : Char) :
    digitsValue (ds ++ [c]) = 10 * digitsValue ds + (c.toNat - '0'.toNat) := by
  rw [digitsValue, List.foldl_append]
  rfl

section
variable {table : LabelTable} {a b : Expr} {x y : Int}

theorem Expr.eval_add (ha : a.eval table = .ok x) (hb : b.eval table = .ok y) :
    (Expr.add a b).eval table = .ok (x + y) := by
  rw [Expr.eval, ha, hb]
  rfl

theorem Expr.eval_sub (ha : a.eval table = .ok x) (hb : b.eval table = .ok y) :
    (Expr.sub a b).eval table = .ok (x - y) := by
  rw [Expr.eval, ha, hb]
  rfl

theorem Expr.eval_mul (ha : a.eval table = .ok x) (hb : b.eval table = .ok y) :
    (Expr.mul a b).eval table = .ok (x * y) := by
  rw [Expr.eval, ha, hb]
  rfl

theorem Expr.eval_div (ha : a.eval table = .ok x) (hb : b.eval table = .ok y) :
    (Expr.div a b).eval table =
      if y = 0 ∨ x % y ≠ 0 then .error (.refused .literalDivision) else .ok (x / y) := by
  rw [Expr.eval, ha, hb]
  rfl

theorem Statement.word_literal {cfg : Config} {pos : Nat} (ha : a.eval table = .ok x) :
    Statement.word cfg table pos (.literal a) =
      if inRange cfg.xlen x then .ok x else .error (.refused .literalOutOfRange) := by
  rw [Statement.word, ha]
  rfl

end

/-- Settles O54: the tokens of a literal are read by precedence, and each operator evaluates both its operands. -/
theorem literalValues : Obligations.LiteralValues := by
  unfold Obligations.LiteralValues
  refine ⟨fun w hw => ⟨Written.parseExpr_spell hw, Written.parseStatement_spell hw⟩, ⟨rfl, digitsValue_append⟩, ?_⟩
  intro cfg table pos a b x y name ha hb
  refine ⟨Statement.word_literal ha, fun _ => rfl, Expr.eval_add ha hb, Expr.eval_sub ha hb, Expr.eval_mul ha hb,
    fun q nonzero quotient => ?_, fun inexact => ?_, fun p found => ?_, fun unbound => ?_⟩
  · rw [Expr.eval_div ha hb, quotient, Int.mul_emod_left, Int.mul_ediv_cancel q nonzero, if_neg (by simp [nonzero])]
  · rw [Expr.eval_div ha hb, if_pos (inexact.imp id (mt Int.dvd_of_emod_eq_zero))]
  · simp only [Expr.eval, found]
  · simp only [Expr.eval, unbound]

/-! ## Open spellings -/

/-- Where pass 1 binds the labels, what is left is the check of the label prefixes and pass 2. -/
theorem assembleLines_of_bound {lines : List SourceLine} {table : LabelTable}
    (bound : bindLabels lines 0 [] = some table) (address : Int) (owner : Owner) (s : State) :
    assembleLines lines address owner s =
      if lines.any SourceLine.openLabel then .refused .unstatedLexeme
      else emitLines table address owner lines 0 s := by
  rw [assembleLines, bound]

/-- Settles O56: a line is refused for its spelling only where it has no form, and pass 2 ends at its first line
that gives no word. -/
theorem uncoveredTextIsRefused : Obligations.UncoveredTextIsRefused := by
  unfold Obligations.UncoveredTextIsRefused
  refine ⟨fun cfg table pos body => ⟨fun form refused => ?_, fun noForm spelling => ?_, fun noForm spelling => ?_⟩,
    fun lines address owner s table bound => ⟨fun openLabel => ?_, fun refused => ?_⟩⟩
  · obtain ⟨noForm, -⟩ := lineWord_unstated refused
    rw [noForm] at form
    cases form
  · rw [lineWord_of_no_form noForm, if_pos spelling]
  · rw [lineWord_of_no_form noForm, if_neg (by simp [spelling])]
  · rw [assembleLines_of_bound bound, if_pos (List.any_eq_true.mpr openLabel)]
  · by_cases openLabel : lines.any SourceLine.openLabel = true
    · exact .inl (List.any_eq_true.mp openLabel)
    · rw [assembleLines_of_bound bound, if_neg openLabel] at refused
      obtain ⟨ws, each, ends⟩ := emitLines_eq table address owner lines 0 s
      simp only [Nat.cast_zero, add_zero, zero_add] at each ends
      rcases ends with ⟨-, done⟩ | ⟨_, _, -, -, failed⟩ | ⟨body, r, line, stops, refused'⟩
      · cases refused.symm.trans done
      · cases refused.symm.trans failed
      · cases refused.symm.trans refused'
        obtain ⟨noForm, spelling⟩ := lineWord_unstated stops
        exact .inr ⟨ws.length, body, line, noForm, spelling, fun j hj => by
          obtain ⟨earlier, w, hearlier, -, word⟩ := each j hj
          exact ⟨earlier, w, hearlier, word⟩⟩

end Sys2Proof.Machine
end

section
/-! Printed instructions (`30_encoding.md` rule R79, rule R82, rule R84): a text of plain words with single blanks
between them is read as those words, and the words of a printed instruction as that instruction. -/

namespace Sys2Proof.Machine

/-! ## Texts of plain words -/

/-- A character that separates no words, ends no line, begins no comment and stands after no label. -/
def isPlainChar (c : Char) : Bool := !isSpace c && c != '\n' && c != ';' && c != ':'

/-- A word of such characters. -/
abbrev PlainWord (w : Text) : Prop := w ≠ [] ∧ w.all isPlainChar = true

theorem PlainWord.char {w : Text} (h : PlainWord w) {c : Char} (hc : c ∈ w) :
    isSpace c = false ∧ c ≠ '\n' ∧ c ≠ ';' ∧ c ≠ ':' := by
  obtain ⟨-, all⟩ := h
  simpa [isPlainChar, and_assoc] using List.all_eq_true.mp all c hc

/-- Words with single blanks between them. -/
def spaced (w : Text) (ws : List Text) : Text := w ++ ws.flatMap (' ' :: ·)

theorem spaced_nil (w : Text) : spaced w [] = w := List.append_nil w

theorem spaced_cons (w v : Text) (vs : List Text) : spaced w (v :: vs) = w ++ ' ' :: spaced v vs := rfl

section
variable {w : Text} {ws : List Text} (plain : ∀ v ∈ w :: ws, PlainWord v)
include plain

theorem wordsOf_spaced : wordsOf (spaced w ws) = w :: ws := by
  have pieces : splitText isSpace (spaced w ws) = w :: ws := by
    induction ws generalizing w with
    | nil => rw [spaced_nil, splitText_last fun c hc => ((plain w (by simp)).char hc).1]
    | cons v vs ih =>
      rw [spaced_cons, splitText_word (fun c hc => ((plain w (by simp)).char hc).1) (by decide),
        ih fun u hu => plain u (List.mem_cons_of_mem _ hu)]
  rw [wordsOf, pieces, List.filter_eq_self]
  intro v hv
  obtain ⟨hne, -⟩ := plain v hv
  exact decide_eq_true hne

/-- No character of the text ends a line, begins a comment or stands after a label. -/
theorem ne_of_mem_spaced {c : Char} (hc : c ∈ spaced w ws) : c ≠ '\n' ∧ c ≠ ';' ∧ c ≠ ':' := by
  induction ws generalizing w with
  | nil =>
    rw [spaced_nil] at hc
    exact ((plain w (by simp)).char hc).2
  | cons v vs ih =>
    rw [spaced_cons] at hc
    rcases List.mem_append.mp hc with hc | hc
    · exact ((plain w (by simp)).char hc).2
    · rcases List.mem_cons.mp hc with rfl | hc
      · decide
      · exact ih (fun u hu => plain u (List.mem_cons_of_mem _ hu)) hc

/-- The text begins with a character that is no blank. -/
theorem spaced_begins : ∃ c cs, spaced w ws = c :: cs ∧ isSpace c = false := by
  have first := plain w (by simp)
  obtain ⟨c, cs, rfl⟩ := List.exists_cons_of_ne_nil first.1
  exact ⟨c, cs ++ _, rfl, (first.char (by simp)).1⟩

/-- The text ends with a character that is no blank. -/
theorem spaced_ends : ∃ cs c, spaced w ws = cs ++ [c] ∧ isSpace c = false := by
  induction ws generalizing w with
  | nil =>
    have only := plain w (by simp)
    refine ⟨w.dropLast, w.getLast only.1, ?_, (only.char (List.getLast_mem only.1)).1⟩
    rw [spaced_nil, List.dropLast_concat_getLast]
  | cons v vs ih =>
    obtain ⟨cs, c, e, hc⟩ := ih fun u hu => plain u (List.mem_cons_of_mem _ hu)
    exact ⟨w ++ ' ' :: cs, c, by rw [spaced_cons, e]; simp, hc⟩

theorem trimText_spaced : trimText (spaced w ws) = spaced w ws := by
  obtain ⟨c, cs, front, hc⟩ := spaced_begins plain
  obtain ⟨ds, d, back, hd⟩ := spaced_ends plain
  have keepsFront : (spaced w ws).dropWhile isSpace = spaced w ws := by
    rw [front, List.dropWhile_cons_of_neg (by simp [hc])]
  rw [trimText, keepsFront, back, List.reverse_append, List.reverse_singleton, List.singleton_append,
    List.dropWhile_cons_of_neg (by simp [hd])]
  simp

theorem stripLine_spaced : stripLine (spaced w ws) = spaced w ws := by
  have noComment : (spaced w ws).takeWhile (fun c => decide (c ≠ ';')) = spaced w ws :=
    List.takeWhile_eq_self_iff.mpr fun c hc => decide_eq_true (ne_of_mem_spaced plain hc).2.1
  rw [stripLine, noComment, trimText_spaced plain]

end

/-- A text with no colon begins with no label. -/
theorem splitLabel_of_no_colon {t : Text} (h : ':' ∉ t) : splitLabel t = ⟨none, t⟩ := by
  unfold splitLabel
  simp only
  split
  · rename_i c cs rest _ after
    have colon : ':' ∈ (t.dropWhile isNameChar).dropWhile isSpace := by rw [after]; simp
    exact absurd ((List.dropWhile_sublist _).subset ((List.dropWhile_sublist _).subset colon)) h
  · rfl

/-- A text of plain words is one line with no label. -/
theorem sourceLines_spaced {w : Text} {ws : List Text} (plain : ∀ v ∈ w :: ws, PlainWord v) :
    sourceLines (spaced w ws) = [⟨none, spaced w ws⟩] := by
  have chars {c : Char} (hc : c ∈ spaced w ws) := ne_of_mem_spaced plain hc
  obtain ⟨c, cs, front, -⟩ := spaced_begins plain
  have oneLine : splitText (fun c => decide (c = '\n')) (spaced w ws) = [spaced w ws] :=
    splitText_last fun c hc => decide_eq_false (chars hc).1
  rw [sourceLines, oneLine, List.map_singleton, stripLine_spaced plain,
    List.filter_cons_of_pos (by simp [front]), List.filter_nil, List.map_singleton,
    splitLabel_of_no_colon fun hc => (chars hc).2.2 rfl]

/-- A text that is one line with no label, and gives a word there, writes that word. -/
theorem assemble_of_line {text body : Text} (line : sourceLines text = [⟨none, body⟩]) (hne : body ≠ [])
    (noColon : ':' ∉ body) {s : State} {w : Int} (word : lineWord s.cfg [] 0 body = .ok w) (address : Int)
    (owner : Owner) : assemble text address owner s = .done 1 [] (s.write address w owner) := by
  have closed : [(⟨none, body⟩ : SourceLine)].any SourceLine.openLabel = false := by
    have none : body.any (fun c => decide (c = ':')) = false :=
      List.any_eq_false.mpr fun c hc colon => noColon (of_decide_eq_true colon ▸ hc)
    simp [SourceLine.openLabel, none]
  have bound : bindLabels [⟨none, body⟩] 0 [] = some [] := rfl
  rw [assemble, line, assembleLines_of_bound bound, closed, if_neg (by simp),
    emitLines_cons_of_ok (decide_eq_true hne) word, emitLines]
  simp [rebase]

/-! ## The words of a printed instruction -/

/-- The operand a field is printed as. -/
def Operand.ofField (f : AddressField) : Operand := ⟨f.indirect, .number f.offset⟩

/-- A printed field is a plain word and is read as that field. -/
theorem spellField_spec {f : AddressField} (h : f.wf) :
    PlainWord (spellField f) ∧ parseOperand (spellField f) = some (.ofField f) := by
  have cases := AddressField.offset_cases h
  obtain ⟨b, o⟩ := f
  rcases cases with rfl | rfl | rfl | rfl | rfl | rfl | rfl | rfl <;> cases b <;> decide

/-- A printed mnemonic is a plain word and is read as that operation. -/
theorem spellOperation_spec (o : Operation) :
    PlainWord (spellOperation o) ∧ parseCond (spellOperation o) = none ∧
      parseOperation (spellOperation o) = some o := by
  cases o <;> decide

/-- A printed condition word is plain and is read as that condition. -/
theorem spellCond_spec (c : Cond) :
    PlainWord (['I', 'F', '.'] ++ spellCond c) ∧ parseCond (['I', 'F', '.'] ++ spellCond c) = some c := by
  cases c <;> decide

/-- The words after the mnemonic. -/
def operandWords (t s1 s2 : AddressField) : List Text := [spellField t, spellField s1, spellField s2]

theorem spellAction_eq (o : Operation) (t s1 s2 : AddressField) :
    spellAction o t s1 s2 = spaced (spellOperation o) (operandWords t s1 s2) := by
  simp [spellAction, spaced, operandWords]

theorem spellCondition_append_spellAction (o : Operation) (c : Cond) (ca t s1 s2 : AddressField) :
    spellCondition c ca ++ spellAction o t s1 s2 =
      spaced (['I', 'F', '.'] ++ spellCond c) (spellField ca :: spellOperation o :: operandWords t s1 s2) := by
  simp [spellCondition, spellAction, spaced, operandWords]

/-- A text that consists of the words of an instruction line, and what the line is read as. -/
structure Prints (text : Text) (st : Statement) (w : Text) (ws : List Text) : Prop where
  text_eq : text = spaced w ws
  plain : ∀ v ∈ w :: ws, PlainWord v
  line : instructionLine (w :: ws) = true
  reads : parseInstruction (w :: ws) = some st

section
variable {o : Operation} {t s1 s2 : AddressField}

theorem plain_action (ht : t.wf) (h1 : s1.wf) (h2 : s2.wf) :
    ∀ v ∈ spellOperation o :: operandWords t s1 s2, PlainWord v := by
  simp only [operandWords, List.forall_mem_cons]
  exact ⟨(spellOperation_spec o).1, (spellField_spec ht).1, (spellField_spec h1).1, (spellField_spec h2).1,
    List.forall_mem_nil _⟩

theorem parseAction_spec (ht : t.wf) (h1 : s1.wf) (h2 : s2.wf) (c : Cond) (ca : Operand) :
    parseAction c ca (spellOperation o :: operandWords t s1 s2) =
      some (.instruction o c ca (.ofField t) (.ofField s1) (.ofField s2)) := by
  obtain ⟨-, -, mnemonic⟩ := spellOperation_spec o
  simp only [parseAction, operandWords, mnemonic, (spellField_spec ht).2, (spellField_spec h1).2,
    (spellField_spec h2).2]

/-- The form without a condition is read under the default `IF.NZ 0` (rule R82). -/
theorem prints_action (ht : t.wf) (h1 : s1.wf) (h2 : s2.wf) :
    Prints (spellAction o t s1 s2) (.instruction o .nonZero Operand.own (.ofField t) (.ofField s1) (.ofField s2))
      (spellOperation o) (operandWords t s1 s2) := by
  obtain ⟨-, noCond, mnemonic⟩ := spellOperation_spec o
  refine ⟨spellAction_eq o t s1 s2, plain_action ht h1 h2, by simp [instructionLine, mnemonic], ?_⟩
  simp only [parseInstruction, noCond, parseAction_spec ht h1 h2]

/-- The form with the condition written out. -/
theorem prints_condition_action (ht : t.wf) (h1 : s1.wf) (h2 : s2.wf) (c : Cond) {ca : AddressField}
    (hca : ca.wf) :
    Prints (spellCondition c ca ++ spellAction o t s1 s2)
      (.instruction o c (.ofField ca) (.ofField t) (.ofField s1) (.ofField s2)) (['I', 'F', '.'] ++ spellCond c)
      (spellField ca :: spellOperation o :: operandWords t s1 s2) := by
  obtain ⟨plainCond, cond⟩ := spellCond_spec c
  obtain ⟨plainField, field⟩ := spellField_spec hca
  refine ⟨spellCondition_append_spellAction o c ca t s1 s2, ?_, by simp only [instructionLine, cond]; rfl, ?_⟩
  · exact List.forall_mem_cons.mpr ⟨plainCond, List.forall_mem_cons.mpr ⟨plainField, plain_action ht h1 h2⟩⟩
  · simp only [parseInstruction, cond, field, parseAction_spec ht h1 h2]

end

theorem Prints.parseStatement {text w : Text} {ws : List Text} {st : Statement} (h : Prints text st w ws) :
    Machine.parseStatement text = some st := by
  rw [Machine.parseStatement, h.text_eq, wordsOf_spaced h.plain, if_pos h.line, h.reads]

/-- A text of the words of an instruction line with an encoding assembles to its packed Word, as a line and as a
call. -/
theorem Prints.assembles {text w : Text} {ws : List Text} {o : Operation} {c : Cond} {ca t s1 s2 : AddressField}
    (h : Prints text (.instruction o c (.ofField ca) (.ofField t) (.ofField s1) (.ofField s2)) w ws)
    (operands : operandsWf ca t s1 s2) :
    (∀ (cfg : Config) (table : LabelTable) (pos : Nat),
      lineWord cfg table pos text = .ok (encode cfg (o.instr c ca t s1 s2))) ∧
      ∀ (s : State) (address : Int) (owner : Owner),
        assemble text address owner s =
          .done 1 [] (s.write address (encode s.cfg (o.instr c ca t s1 s2)) owner) := by
  have word (cfg : Config) (table : LabelTable) (pos : Nat) :
      lineWord cfg table pos text = .ok (encode cfg (o.instr c ca t s1 s2)) := by
    rw [lineWord_of_form h.parseStatement,
      offsetsAreRangeChecked cfg table pos o c _ _ _ _ ca t s1 s2 rfl rfl rfl rfl, if_pos operands]
  refine ⟨word, fun s address owner => ?_⟩
  obtain ⟨x, xs, front, -⟩ := spaced_begins h.plain
  have line := sourceLines_spaced h.plain
  have noColon : ':' ∉ spaced w ws := fun hc => (ne_of_mem_spaced h.plain hc).2.2 rfl
  rw [← h.text_eq] at front line noColon
  exact assemble_of_line line (by simp [front]) noColon (word s.cfg [] 0) address owner

/-- Settles O51: a printed instruction is the form without a condition, where that is the default, or the form with
the condition written out. -/
theorem printedInstructionsAssemble : Obligations.PrintedInstructionsAssemble := by
  unfold Obligations.PrintedInstructionsAssemble
  intro o c ca t s1 s2 operands text listed
  obtain ⟨hca, ht, h1, h2⟩ := id operands
  have written := (prints_condition_action (o := o) ht h1 h2 c hca).assembles operands
  simp only [List.mem_cons, List.not_mem_nil, or_false] at listed
  rcases listed with rfl | rfl
  · unfold spellInstruction
    split
    · rename_i isDefault
      obtain ⟨rfl, rfl⟩ := isDefault
      exact (prints_action ht h1 h2).assembles operands
    · exact written
  · exact written

end Sys2Proof.Machine
end
